-- ==== Sys2Proof/Word.lean ====
section
/-! DEFINITION. The value types of the NibbleOS core: symbols, cells, and the counters that run from 0 to 256. -/

namespace Sys2Proof

/-- A symbol of the instruction stream (00_scope.md R6 `NIB_W`, R15). -/
abbrev Nibble := BitVec 4

/-- A cell of the operand stack or a byte of the code store (R6 `CELL_W`); always unsigned (R12). -/
abbrev Byte := BitVec 8

/-- The legal values 0..256 of the 9-bit registers `sp`, `hp`, `pc` and `.ret_pc` (10_state.md R20, D18). -/
abbrev Count := Fin 257

/-- One more; 256 stays 256 (no rule counts past it: the callers test for 256 first). -/
def countUp (c : Count) : Count := if h : c.val < 256 then ⟨c.val + 1, by omega⟩ else c

/-- One less; 0 stays 0 (the callers test for 0 first). -/
def countDown (c : Count) : Count := ⟨c.val - 1, by omega⟩

/-- `k` less, for `k` at most the count. -/
def countBack (c : Count) (k : Nat) : Count := ⟨c.val - k, by omega⟩

/-- A code-store address as a value of `pc`. -/
def countOfByte (b : Byte) : Count := ⟨b.toNat, by omega⟩

end Sys2Proof
end

