-- ==== Sys2Proof/Config.lean ====
section
/-! DEFINITION. The parameters of the block (00_scope.md R6) and the free values of the model: the contents that
10_state.md R32 leaves unspecified at reset. A free value is an opaque constant: nothing can be proved of what it is. -/

namespace Sys2Proof

/-- R6 `STACK_CAP`: cells of the operand stack. -/
abbrev Config.stackCap : Nat := 256

/-- R6 `CS_CAP`: bytes of the code store. -/
abbrev Config.codeCap : Nat := 256

/-- R6 `GT_SLOTS`: entries of the global table. -/
abbrev Config.tableSlots : Nat := 16

/-- R6 `COUNT_CLAMP`: the largest value `stackcount` reports. -/
abbrev Config.countClamp : Nat := 15

/-- R6 `RET_MARKER`: the byte written after every body. -/
abbrev Config.retMarker : Byte := 4#8

/-- The reference value of `RS_DEPTH` (R6, D1). The parameter itself is OPEN: it is the length of `State.rs`
(DESIGN CHOICE, log 6), and only `State.reset` uses this number. -/
abbrev Config.rsDepthReference : Nat := 16

/-- What stack cell `i` holds before anything is pushed there (R32: unspecified; DESIGN CHOICE, log 5). -/
opaque Config.stackCellAtReset (i : Nat) : Byte

/-- What code-store byte `a` holds before `define` writes it (R32: unspecified; DESIGN CHOICE, log 5). -/
opaque Config.codeByteAtReset (a : Nat) : Byte

/-- What `GT[s].addr` holds before the first successful `define` to `s` (R32: unspecified; DESIGN CHOICE, log 5). -/
opaque Config.tableAddrAtReset (s : Nat) : Byte

/-- What `RS[k].ret_pc` holds before frame `k` is first pushed (R32: unspecified; DESIGN CHOICE, log 5). -/
opaque Config.frameRetPcAtReset (k : Nat) : Count

/-- What `RS[k].tail` holds before frame `k` is first pushed (R32: unspecified; DESIGN CHOICE, log 5). -/
opaque Config.frameTailAtReset (k : Nat) : Bool

end Sys2Proof
end

