-- ==== Sys2Proof/Syntax.lean ====
section
/-! DEFINITION. The instructions of the NibbleOS core, one constructor for each row of spec/opcode_table.json
(30_encoding.md R85). -/

namespace Sys2Proof

/-- A complete instruction: its opcode and its INLINE operands (R81, R82). Operands an instruction pops from the operand
stack are no part of it (00_scope.md R16, conflict C1). An inline operand is the 8-bit value the decoder is fed: the
zero-extended input symbol, or a whole code-store byte (R80, R88). -/
inductive Instr where
  | noop
  | push (imm : Byte)
  | add
  | define (body : List Byte)
  | ret
  | call
  | stackcount
  /-- `show`: the name is a word of Lean's, so the constructor has a longer one. -/
  | showTop
  | del
  | copy
  | sub
  | jnz
  | rsv12
  | rsv13
  | rsv14
  | page2
deriving DecidableEq, Repr

end Sys2Proof
end

