-- ==== Sys2Proof/WellFormed.lean ====
section
/-! DEFINITION. Which instructions the 4-bit encoding can carry (30_encoding.md R81, R83, R84). -/

namespace Sys2Proof

/-- An inline operand is one symbol, 0..15 (R81, R83). -/
def symbolFits (b : Byte) : Bool := b.toNat < 16

/-- A body has at most 255 symbols: its size is one popped cell (R81, 44_define.md R157). -/
def bodyFits (body : List Byte) : Bool := body.length ≤ 255

/-- The instruction has an encoding (R81). -/
def Instr.wellFormed : Instr → Bool
  | .push imm => symbolFits imm
  | .define body => bodyFits body && body.all symbolFits
  | .noop | .add | .ret | .call | .stackcount | .showTop | .del | .copy | .sub | .jnz
  | .rsv12 | .rsv13 | .rsv14 | .page2 => true

end Sys2Proof
end

