-- ==== Sys2Proof/Decode.lean ====
section
/-! DEFINITION. The encoding of 30_encoding.md: the opcode map, reading an instruction from the values fed to the decoder,
the encoder, and the assembler's pseudo-instructions. -/

namespace Sys2Proof

/-- `zext_8` of 00_scope.md R12. -/
def zext8 (n : Nibble) : Byte := n.setWidth 8

/-- Bits 3..0 of a value fed to the decoder. -/
def lowNibble (b : Byte) : Nibble := b.setWidth 4

/-- The three formats of R81. Format Z is the opcode alone, so it is a whole instruction. -/
inductive Format where
  | z (i : Instr)
  | p
  | d
deriving DecidableEq, Repr

/-- The opcode map of R85, row by row. -/
def opcodeMap : Vector Format 16 := #v[
  .z .noop,        -- 0000
  .p,              -- 0001 push
  .z .add,         -- 0010
  .d,              -- 0011 define
  .z .ret,         -- 0100
  .z .call,        -- 0101
  .z .stackcount,  -- 0110
  .z .showTop,     -- 0111
  .z .del,         -- 1000
  .z .copy,        -- 1001
  .z .sub,         -- 1010
  .z .jnz,         -- 1011
  .z .rsv12,       -- 1100
  .z .rsv13,       -- 1101
  .z .rsv14,       -- 1110
  .z .page2]       -- 1111

/-- Symbol 0 selects the instruction by its full 4-bit value (R85); all sixteen values are decoded (R86). -/
def formatOf (op : Nibble) : Format := opcodeMap[op.toNat]

/-- How many inline operand symbols follow the opcode, `size` being what `define` pops when it is decoded (R82, R91). -/
def inlineCount (op : Nibble) (size : Nat) : Nat :=
  match formatOf op with
  | .z _ => 0
  | .p => 1
  | .d => size

/-- Why a list of fed values does not begin with a complete instruction. -/
inductive DecodeError where
  /-- There is no value at all. -/
  | noSymbol
  /-- The value where an opcode is awaited is 16 or more: no opcode (R88, R107). -/
  | unknownOpcode (b : Byte)
  /-- The values end before the instruction's inline operands do: the decoder would go on waiting (R247). -/
  | missingOperands
deriving DecidableEq, Repr

/-- The answer of the decoder: an instruction and the values after it, or a refusal by name. -/
inductive Decoded where
  | instr (i : Instr) (rest : List Byte)
  | rejected (why : DecodeError)
deriving DecidableEq, Repr

/-- Reads one instruction from the values fed to the decoder, symbol 0 first (R80, R81). `size` is the cell on top of the
operand stack when the opcode is decoded, which alone fixes the length of a `define` (R82, R91). -/
def decode (size : Nat) : List Byte → Decoded
  | [] => .rejected .noSymbol
  | b :: rest =>
    if 16 ≤ b.toNat then .rejected (.unknownOpcode b)
    else match formatOf (lowNibble b), rest with
      | .z i, _ => .instr i rest
      | .p, [] => .rejected .missingOperands
      | .p, imm :: after => .instr (.push imm) after
      | .d, _ =>
        if size ≤ rest.length then .instr (.define (rest.take size)) (rest.drop size)
        else .rejected .missingOperands

/-- The opcode of an instruction (R85). -/
def opcodeOf : Instr → Nibble
  | .noop => 0b0000#4
  | .push _ => 0b0001#4
  | .add => 0b0010#4
  | .define _ => 0b0011#4
  | .ret => 0b0100#4
  | .call => 0b0101#4
  | .stackcount => 0b0110#4
  | .showTop => 0b0111#4
  | .del => 0b1000#4
  | .copy => 0b1001#4
  | .sub => 0b1010#4
  | .jnz => 0b1011#4
  | .rsv12 => 0b1100#4
  | .rsv13 => 0b1101#4
  | .rsv14 => 0b1110#4
  | .page2 => 0b1111#4

/-- The inline operands of an instruction, in stream order (R81). -/
def inlineOperands : Instr → List Byte
  | .push imm => [imm]
  | .define body => body
  | .noop | .add | .ret | .call | .stackcount | .showTop | .del | .copy | .sub | .jnz
  | .rsv12 | .rsv13 | .rsv14 | .page2 => []

/-- The symbols of a well-formed instruction, opcode first (R81). -/
def encode (i : Instr) : List Nibble := opcodeOf i :: (inlineOperands i).map lowNibble

/-- The values the decoder is fed for an instruction: its encoding, zero-extended (R80). -/
def fedBytes (i : Instr) : List Byte := (encode i).map zext8

/-- The symbols of a program (R89). -/
def assemble (program : List Instr) : List Nibble := program.flatMap encode

/-- Pseudo-instruction `call s` (R90). -/
def pseudoCall (s : Nibble) : List Instr := [.push (zext8 s), .call]

/-- Pseudo-instruction `del k` (R90). -/
def pseudoDel (k : Nibble) : List Instr := [.push (zext8 k), .del]

/-- Pseudo-instruction `copy k` (R90). -/
def pseudoCopy (k : Nibble) : List Instr := [.push (zext8 k), .copy]

/-- Pseudo-instruction `jnz s` (R90): the test value is already on the stack. -/
def pseudoJnz (s : Nibble) : List Instr := [.push (zext8 s), .jnz]

/-- Pseudo-instruction `dup` (R90). -/
def pseudoDup : List Instr := pseudoCopy 0#4

/-- Pseudo-instruction `drop` (R90). -/
def pseudoDrop : List Instr := pseudoDel 0#4

/-- `define [ .. ]` of R89: the symbols of the bracketed instructions are the body. -/
def defineOf (body : List Instr) : Instr := .define ((assemble body).map zext8)

/-- Pseudo-instruction `def s [ body ]` (R90), for a body of at most 15 symbols. -/
def pseudoDef (s : Nibble) (body : List Instr) : List Instr :=
  [.push (zext8 s), .push (BitVec.ofNat 8 (assemble body).length), defineOf body]

/-- Symbol `k` of an instruction whose bits are `w`: bits `4k+3` to `4k` (DESIGN CHOICE, log 9: the table's rows are
numbered from symbol 0's bit 0). -/
def tableSymbol (nbits w k : Nat) : Nibble := BitVec.ofNat 4 ((w % 2 ^ nbits) >>> (4 * k))

/-- The first `n` symbols of an instruction whose bits are `w`. -/
def tableSymbols (nbits w n : Nat) : List Nibble := (List.range n).map (tableSymbol nbits w)

/-- What the decoder reads from an instruction whose bits are `w`, on an empty operand stack, where a `define` has size 0
(R84, 44_define.md R156): two symbols are then the longest instruction. -/
def decodeTableWord (nbits w : Nat) : Option Instr :=
  match decode 0 ((tableSymbols nbits w 2).map zext8) with
  | .instr i _ => some i
  | .rejected _ => none

end Sys2Proof
end

