-- ==== Sys2Proof/Machine/State.lean ====
section
/-! DEFINITION. The state of the core (10_state.md R20), the outcomes' reasons, and the state after reset (R32). -/

namespace Sys2Proof.Machine

/-- One of the block's byte memories: the cells written since reset, as (address, byte) pairs, addresses strictly rising
and below 256 (`Memory.wf`). An unlisted address has not been written (DESIGN CHOICE, log 5). -/
abbrev Memory := List Host.Cell

/-- An entry of the global table (R23). `addr` is meaningful only when `valid`. -/
structure TableEntry where
  valid : Bool
  addr  : Byte
deriving DecidableEq, Repr

/-- A frame of the return stack (R27): the caller's resume address, and whether a taken `jnz` (not a `call`) pushed it. -/
structure Frame where
  retPc : Count
  tail  : Bool
deriving DecidableEq, Repr

/-- The events of the output channel (00_scope.md R9). -/
inductive Event where
  | display (v : Byte)
  | execBegin
  | execEnd
deriving DecidableEq, Repr

/-- The six sticky bits of the fault register (R28, 60_exceptions.md R201). -/
inductive FaultBit where
  | stkOvf
  | csFull
  | badSlot
  | undefSlot
  | rsOvf
  | fetchOob
deriving DecidableEq, Repr

/-- Why a step stops with a fault: never. Every anomaly of the block has an outcome after which it goes on (60_exceptions.md
R200, R201, R202), recorded at most in the `fault` register (log 7). -/
inductive Fault where
deriving DecidableEq, Repr

/-- Why an instruction has no meaning. -/
inductive Refusal where
  /-- An arm of `exec` whose instruction has no meaning yet; raised by no arm of this model. Safe. -/
  | notModelled (mnemonic : String)
deriving DecidableEq, Repr

/-- The complete state of the block (R20), and after it the three fields by which the outside world meets it. -/
@[ext]
structure State where
  /-- `S`: the operand stack's cells (R21). -/
  stack : Memory
  /-- `sp`: the cells in use are `S[0]` to `S[sp-1]` (R21). -/
  sp : Count
  /-- `CS`: the code store (R22). -/
  code : Memory
  /-- `hp`: the free bytes, and the lowest address in use (R22). -/
  hp : Count
  /-- `GT`: the global table (R23). -/
  gt : Vector TableEntry 16
  /-- `cur_op`: the opcode most recently accepted (R24). -/
  curOp : Nibble
  /-- `pend`: inline operand symbols still to come; 0 is "awaiting an opcode" (R24). -/
  pend : Byte
  /-- `def_n`: the size popped by the most recent `define` (R24). -/
  defN : Byte
  /-- `pc`: the next code-store address to fetch, while `depth > 0` (R26). -/
  pc : Count
  /-- `RS`: the return stack's `RS_DEPTH` frames, frame 0 outermost (R27). Its length IS the open parameter `RS_DEPTH`
  (DESIGN CHOICE, log 6). -/
  rs : List Frame
  /-- `depth`: the frames in use are `RS[0]` to `RS[depth-1]` (R27). -/
  depth : Nat
  /-- `fault`: the sticky fault register, bit numbers as R28. -/
  fault : BitVec 6
  /-- MODEL: the symbols the input collaborator has still to deliver, next first (00_scope.md R8; log 1). -/
  input : List Nibble
  /-- MODEL: the event trace since reset, oldest first (R9, R11; log 4). -/
  events : List Event
  /-- MODEL: the environment asserts `rst` at the next step (R7, 70_reset_and_hazards.md R230; log 3). -/
  rst : Bool
deriving DecidableEq, Repr

/-- The state after reset (R32) of a block with `rsDepth` return-stack frames. -/
def State.resetWith (rsDepth : Nat) : State where
  stack := []
  sp := 0
  code := []
  hp := 256
  gt := Vector.ofFn fun s => ⟨false, Config.tableAddrAtReset s⟩
  curOp := 0
  pend := 0
  defN := 0
  pc := 0
  rs := (List.range rsDepth).map fun k => ⟨Config.frameRetPcAtReset k, Config.frameTailAtReset k⟩
  depth := 0
  fault := 0
  input := []
  events := []
  rst := false

/-- The state after reset, with the reference value of `RS_DEPTH` (R6, R32). -/
def State.reset : State := State.resetWith Config.rsDepthReference

end Sys2Proof.Machine
end

