-- ==== Sys2Proof/Machine/Flags.lean ====
section
/-! DEFINITION. The block has no flags and no condition codes (10_state.md R30); its only flag-like register is the sticky
fault register (R28). -/

namespace Sys2Proof.Machine

/-- The bit number of a fault bit (R28, 60_exceptions.md R201). -/
def FaultBit.index : FaultBit → Nat
  | .stkOvf => 0
  | .csFull => 1
  | .badSlot => 2
  | .undefSlot => 3
  | .rsOvf => 4
  | .fetchOob => 5

/-- Whether a fault bit is set. -/
def State.hasFault (s : State) (b : FaultBit) : Bool := s.fault.getLsbD b.index

/-- `fault.X <- 1` (00_scope.md R12); no rule writes 0 to a bit. -/
def raise (b : FaultBit) (s : State) : State := { s with fault := s.fault ||| 1#6 <<< b.index }

end Sys2Proof.Machine
end

