-- ==== Sys2Proof/Machine/Ops.lean ====
section
/-! DEFINITION. The primitives of 00_scope.md R13 over the block's four memories (20_memory.md), the engine's entry and
return (45_control_flow.md), and the abort (60_exceptions.md R202), the block's one trap-like action. -/

namespace Sys2Proof.Machine

/-! ### Byte memories -/

/-- The canonical form of a memory: addresses strictly rising, all below 256. -/
abbrev Memory.wf (m : Memory) : Prop := m.Pairwise (fun c d => c.1 < d.1) ∧ ∀ c ∈ m, c.1 < 256

/-- The byte written last at an address, if one was written since reset. -/
def Memory.read : Memory → Nat → Option Byte
  | [], _ => none
  | (k, b) :: m, a => if a = k then some b else Memory.read m a

/-- Writes one byte, keeping the canonical form. -/
def Memory.write : Memory → Nat → Byte → Memory
  | [], a, v => [(a, v)]
  | (k, b) :: m, a, v =>
    if a < k then (a, v) :: (k, b) :: m
    else if a = k then (a, v) :: m
    else (k, b) :: Memory.write m a v

/-- Writes bytes at ascending addresses from `a` on, in that order. -/
def Memory.writeAll (m : Memory) (a : Nat) : List Byte → Memory
  | [] => m
  | v :: vs => Memory.writeAll (m.write a v) (a + 1) vs

/-! ### Events -/

/-- `emit E`: appends to the event trace (00_scope.md R12). -/
def emit (e : Event) (s : State) : State := { s with events := s.events ++ [e] }

/-! ### The operand stack -/

/-- What cell `i` of a stack memory holds: the last byte written, or its unspecified reset content (R32, R66). -/
def stackRead (m : Memory) (i : Nat) : Byte := (m.read i).getD (Config.stackCellAtReset i)

/-- `S[i]`. -/
def State.cell (s : State) (i : Nat) : Byte := stackRead s.stack i

/-- `StackPush(b)` (R51): dropped, with STK_OVF, on a full stack. -/
def stackPush (b : Byte) (s : State) : State :=
  if s.sp.val = Config.stackCap then raise .stkOvf s
  else { s with stack := s.stack.write s.sp.val b, sp := countUp s.sp }

/-- `StackPop()` (R52): 0 and no change on an empty stack. -/
def stackPop (s : State) : Byte × State :=
  if s.sp.val = 0 then (0#8, s)
  else (s.cell (s.sp.val - 1), { s with sp := countDown s.sp })

/-- `StackPeek(off)` (R53): 0 out of range. -/
def stackPeek (off : Byte) (s : State) : Byte :=
  if off.toNat < s.sp.val then s.cell (s.sp.val - 1 - off.toNat) else 0#8

/-- The compaction loop of R54: `n` times `S[j] <- S[j + 1]`, from `j = i` upward. -/
def moveDown : Nat → Nat → Memory → Memory
  | 0, _, m => m
  | n + 1, i, m => moveDown n (i + 1) (m.write i (stackRead m (i + 1)))

/-- The index of the cell `StackRemoveAt` deletes from a stack that is not empty: `off` below the top, clamped to the
base (R54). -/
def removeIndex (off : Byte) (s : State) : Nat := s.sp.val - 1 - min off.toNat (s.sp.val - 1)

/-- `StackRemoveAt(off)` (R54): nothing on an empty stack. -/
def stackRemoveAt (off : Byte) (s : State) : State :=
  if s.sp.val = 0 then s
  else
    { s with
      stack := moveDown (s.sp.val - 1 - removeIndex off s) (removeIndex off s) s.stack
      sp := countDown s.sp }

/-- Pops `n` cells; the first popped ends up last in the list (the loop of 44_define.md R151 with `body[i]`). -/
def popBody : Nat → List Byte → State → List Byte × State
  | 0, acc, s => (acc, s)
  | n + 1, acc, s => popBody n ((stackPop s).1 :: acc) (stackPop s).2

/-! ### The code store -/

/-- `CsFetch(a)` (R56); the unspecified reset content where `define` has not written, which no run reads (R32, R66). -/
def csFetch (a : Nat) (s : State) : Byte := (s.code.read a).getD (Config.codeByteAtReset a)

/-- `CsWrite(a, b)` (R57), for the bytes of a list at ascending addresses. -/
def csWriteAll (a : Nat) (bs : List Byte) (s : State) : State := { s with code := s.code.writeAll a bs }

/-! ### The global table -/

/-- `GtLookup(s)` (R58): the entry address, or `none` with BAD_SLOT or UNDEF_SLOT set. -/
def gtLookup (slot : Byte) (s : State) : Option Byte × State :=
  if h : slot.toNat < 16 then
    if s.gt[slot.toNat].valid then (some s.gt[slot.toNat].addr, s) else (none, raise .undefSlot s)
  else (none, raise .badSlot s)

/-- `GtWrite(s, a)` (R59), for `s` in 0..15. -/
def gtWrite (slot : Byte) (a : Byte) (s : State) : State :=
  { s with gt := s.gt.setIfInBounds slot.toNat ⟨true, a⟩ }

/-! ### The return stack and the engine -/

/-- The parameter `RS_DEPTH`. -/
def State.rsDepth (s : State) : Nat := s.rs.length

/-- `RS[k]`; a frame that does not exist (`k ≥ RS_DEPTH`, which no run reads) is a free value (log 6). -/
def State.frame (s : State) (k : Nat) : Frame :=
  s.rs.getD k ⟨Config.frameRetPcAtReset k, Config.frameTailAtReset k⟩

/-- `Abort(bit)` (60_exceptions.md R202): the block's trap entry. It sets the bit, pops every frame with one `ExecEnd`
each, clears `pend`, and leaves the core idle at top level; it saves nothing, and there is no return from it (R206). -/
def abort (b : FaultBit) (s : State) : State :=
  { raise b s with
    events := s.events ++ List.replicate s.depth .execEnd
    depth := 0
    pend := 0#8 }

/-- The loop of `Terminate()` (45_control_flow.md R175) on the innermost `d` frames. -/
def unwind : Nat → State → State
  | 0, s => s
  | d + 1, s =>
    if (s.frame d).tail then unwind d (emit .execEnd { s with depth := d })
    else { emit .execEnd { s with depth := d } with pc := (s.frame d).retPc }

/-- `Terminate()` (R175): ends the innermost procedure instance and, across tail frames, its callers; swallowed at top
level (R176). -/
def terminate (s : State) : State := unwind s.depth s

/-- The last lines of `Enter` (R171): push a frame, load `pc`, emit `ExecBegin`. -/
def pushFrame (tail : Bool) (addr : Byte) (s : State) : State :=
  emit .execBegin
    { s with rs := s.rs.set s.depth ⟨s.pc, tail⟩, depth := s.depth + 1, pc := countOfByte addr }

/-- `Enter(s, tail)` (R171, R177). The return stack is full at `depth == RS_DEPTH`; `≤` says the same in every state with
`depth ≤ RS_DEPTH` (log 6). -/
def enter (slot : Byte) (tail : Bool) (s : State) : State :=
  match gtLookup slot s with
  | (none, s') => if tail then terminate s' else s'
  | (some addr, s') => if s'.rsDepth ≤ s'.depth then abort .rsOvf s' else pushFrame tail addr s'

/-! ### Reset -/

/-- Asserting `rst` (70_reset_and_hazards.md R230): every state element at its reset value (R32). The block keeps its
`RS_DEPTH`, and the collaborator what it has still to deliver (log 3). -/
def assertRst (s : State) : State := { State.resetWith s.rsDepth with input := s.input }

end Sys2Proof.Machine
end

