-- ==== Sys2Proof/Machine/Operands.lean ====
section
/-! DEFINITION. The operand forms: inline operands, which the decoder collects on the operand stack (40_decoder_push_nop.md
R100, R101), and stack operands, which an instruction pops (00_scope.md R16). There is no other addressing mode (20_memory.md
R71). -/

namespace Sys2Proof.Machine

/-- `cur_op <- op`: an opcode is accepted (R100). -/
def acceptOpcode (op : Nibble) (s : State) : State := { s with curOp := op }

/-- The decode phase of `push` (R100, R104): one inline operand is awaited. -/
def openPush (s : State) : State := { acceptOpcode 0b0001#4 s with pend := 1#8 }

/-- The decode phase of `define` (R100, 44_define.md R150): the size is popped and latched, and as many inline operands are
awaited. -/
def openDefine (s : State) : State :=
  let (n, s') := stackPop (acceptOpcode 0b0011#4 s)
  { s' with defN := n, pend := n }

/-- An inline operand arrives (R101): pushed whole, counted even when the push was dropped. -/
def collectOperand (b : Byte) (s : State) : State :=
  let s' := stackPush b s
  { s' with pend := s'.pend - 1#8 }

/-- Two stack operands, the top one first, and the state after both pops. -/
def popTwo (s : State) : Byte × Byte × State :=
  let (x, s1) := stackPop s
  let (y, s2) := stackPop s1
  (x, y, s2)

end Sys2Proof.Machine
end

