-- ==== Sys2Proof/Machine/Arith.lean ====
section
/-! DEFINITION. `add` and `sub` (41_arith.md R120, R121): modulo 256, no flag (R122). -/

namespace Sys2Proof.Machine

/-- `add` (R120). -/
def execAdd (s : State) : Host.Outcome State Fault Refusal :=
  let (a, b, s') := popTwo (acceptOpcode 0b0010#4 s)
  .next (stackPush (a + b) s')

/-- `sub` (R121): the top cell is the subtrahend. -/
def execSub (s : State) : Host.Outcome State Fault Refusal :=
  let (x, y, s') := popTwo (acceptOpcode 0b1010#4 s)
  .next (stackPush (y - x) s')

end Sys2Proof.Machine
end

