-- ==== Sys2Proof/Machine/Control.lean ====
section
/-! DEFINITION. `ret`, `call` and `jnz` (45_control_flow.md R172 to R174). -/

namespace Sys2Proof.Machine

/-- `ret` (R174): handled by the decoder itself (40_decoder_push_nop.md R100). -/
def execRet (s : State) : Host.Outcome State Fault Refusal := .next (terminate (acceptOpcode 0b0100#4 s))

/-- `call` (R172). -/
def execCall (s : State) : Host.Outcome State Fault Refusal :=
  let (slot, s') := stackPop (acceptOpcode 0b0101#4 s)
  .next (enter slot false s')

/-- `jnz` (R173): the slot is popped first, then the test value; not taken, the slot is not looked up. -/
def execJnz (s : State) : Host.Outcome State Fault Refusal :=
  let (slot, test, s') := popTwo (acceptOpcode 0b1011#4 s)
  .next (if test = 0#8 then s' else enter slot true s')

end Sys2Proof.Machine
end

