-- ==== Sys2Proof/Machine/Define.lean ====
section
/-! DEFINITION. `define` and the code-store allocator (44_define.md R150 to R157). -/

namespace Sys2Proof.Machine

/-- The writes of a successful commit (R151, R152): the body and its marker at the entry address, the table entry, `hp`. -/
def storeProcedure (slot : Byte) (body : List Byte) (s : State) : State :=
  let e := countBack s.hp (body.length + 1)
  { gtWrite slot (BitVec.ofNat 8 e.val) (csWriteAll e.val (body ++ [Config.retMarker]) s) with hp := e }

/-- The checks of the commit (R151, R153): both are made, each failing one sets its bit, either rejects the definition. -/
def commitChecked (slot : Byte) (body : List Byte) (s : State) : State :=
  if s.hp.val < body.length + 1 then
    if 16 ≤ slot.toNat then raise .badSlot (raise .csFull s) else raise .csFull s
  else if 16 ≤ slot.toNat then raise .badSlot s
  else storeProcedure slot body s

/-- `DefineCommit()` (R151): `def_n` body cells are popped, then the slot, and then the checks are made. -/
def defineCommit (s : State) : State :=
  let (body, s1) := popBody s.defN.toNat [] s
  let (slot, s2) := stackPop s1
  commitChecked slot body s2

/-- The body symbols of a `define` arrive (R101): the last one awaited runs the commit. Symbols after it are no part of the
instruction, and if they end early the decoder goes on waiting (log 8). -/
def collectBody : List Byte → State → State
  | [], s => s
  | b :: body, s =>
    let s' := collectOperand b s
    if s'.pend = 0#8 then defineCommit s' else collectBody body s'

/-- `define` (R150, R151): the decode phase, the body, the commit; an empty body commits at once (R100). -/
def execDefine (body : List Byte) (s : State) : Host.Outcome State Fault Refusal :=
  let s' := openDefine s
  .next (if s'.pend = 0#8 then defineCommit s' else collectBody body s')

end Sys2Proof.Machine
end

