-- ==== Sys2Proof/Machine/NoEffect.lean ====
section
/-! DEFINITION. The instructions without an effect beyond `cur_op`: `noop`, `rsv12`, `rsv13`, `rsv14`, `page2`
(40_decoder_push_nop.md R103, R105, R106; 30_encoding.md R86). -/

namespace Sys2Proof.Machine

/-- `noop` (R103). -/
def execNoop (s : State) : Host.Outcome State Fault Refusal := .next (acceptOpcode 0b0000#4 s)

/-- `rsv12` (R105). -/
def execRsv12 (s : State) : Host.Outcome State Fault Refusal := .next (acceptOpcode 0b1100#4 s)

/-- `rsv13` (R105). -/
def execRsv13 (s : State) : Host.Outcome State Fault Refusal := .next (acceptOpcode 0b1101#4 s)

/-- `rsv14` (R105). -/
def execRsv14 (s : State) : Host.Outcome State Fault Refusal := .next (acceptOpcode 0b1110#4 s)

/-- `page2` (R106): one symbol; the symbol after it is an opcode. -/
def execPage2 (s : State) : Host.Outcome State Fault Refusal := .next (acceptOpcode 0b1111#4 s)

end Sys2Proof.Machine
end

