-- ==== Sys2Proof/Machine/Output.lean ====
section
/-! DEFINITION. `stackcount` and `show` (43_output.md R140, R141), the two instructions that emit a display event. -/

namespace Sys2Proof.Machine

/-- `stackcount` (R140): the depth, clamped to 15. -/
def execStackcount (s : State) : Host.Outcome State Fault Refusal :=
  .next (emit (.display (BitVec.ofNat 8 (min s.sp.val Config.countClamp))) (acceptOpcode 0b0110#4 s))

/-- `show` (R141): the top cell, or 0; nothing is popped. -/
def execShow (s : State) : Host.Outcome State Fault Refusal :=
  .next (emit (.display (stackPeek 0#8 s)) (acceptOpcode 0b0111#4 s))

end Sys2Proof.Machine
end

