-- ==== Sys2Proof/Machine/Push.lean ====
section
/-! DEFINITION. `push` (40_decoder_push_nop.md R104). -/

namespace Sys2Proof.Machine

/-- `push n` (R104): the decoder awaits one operand and pushes it as it arrives; `Exec(1)` does nothing. -/
def execPush (imm : Byte) (s : State) : Host.Outcome State Fault Refusal :=
  .next (collectOperand imm (openPush s))

end Sys2Proof.Machine
end

