-- ==== Sys2Proof/Machine/StackManip.lean ====
section
/-! DEFINITION. `del` and `copy` (42_stack_manip.md R130, R131): the offset counts from the top after its own pop. -/

namespace Sys2Proof.Machine

/-- `del` (R130). -/
def execDel (s : State) : Host.Outcome State Fault Refusal :=
  let (off, s') := stackPop (acceptOpcode 0b1000#4 s)
  .next (stackRemoveAt off s')

/-- `copy` (R131). -/
def execCopy (s : State) : Host.Outcome State Fault Refusal :=
  let (off, s') := stackPop (acceptOpcode 0b1001#4 s)
  .next (stackPush (stackPeek off s') s')

end Sys2Proof.Machine
end

