-- ==== Sys2Proof/Machine/Dispatch.lean ====
section
/-! DEFINITION. One arm for each instruction: what a complete instruction does, its inline operands included
(40_decoder_push_nop.md R102). -/

namespace Sys2Proof.Machine

def exec (i : Instr) (s : State) : Host.Outcome State Fault Refusal :=
  match i with
  | .noop => Sys2Proof.Machine.execNoop s
  | .push imm => Sys2Proof.Machine.execPush imm s
  | .add => Sys2Proof.Machine.execAdd s
  | .define body => Sys2Proof.Machine.execDefine body s
  | .ret => Sys2Proof.Machine.execRet s
  | .call => Sys2Proof.Machine.execCall s
  | .stackcount => Sys2Proof.Machine.execStackcount s
  | .showTop => Sys2Proof.Machine.execShow s
  | .del => Sys2Proof.Machine.execDel s
  | .copy => Sys2Proof.Machine.execCopy s
  | .sub => Sys2Proof.Machine.execSub s
  | .jnz => Sys2Proof.Machine.execJnz s
  | .rsv12 => Sys2Proof.Machine.execRsv12 s
  | .rsv13 => Sys2Proof.Machine.execRsv13 s
  | .rsv14 => Sys2Proof.Machine.execRsv14 s
  | .page2 => Sys2Proof.Machine.execPage2 s

end Sys2Proof.Machine
end

