-- ==== Sys2Proof/Machine/Decoder.lean ====
section
/-! DEFINITION. The nibble decoder's one operation `Feed` (40_decoder_push_nop.md R100, R101) and the dispatch it makes
(R102). -/

namespace Sys2Proof.Machine

/-- `Exec(op)` (R102), run when the operands, if any, are on the stack: `push` has nothing left to do and `define` commits;
every other opcode is its whole instruction. -/
def dispatch (op : Nibble) (s : State) : Host.Outcome State Fault Refusal :=
  match formatOf op with
  | .z i => exec i s
  | .p => .next s
  | .d => .next (defineCommit s)

/-- `Feed(b)` while an opcode is awaited (R100). A value of 16 or more is ignored (R107). -/
def feedOpcode (b : Byte) (s : State) : Host.Outcome State Fault Refusal :=
  if 16 ≤ b.toNat then .next s
  else
    match formatOf (lowNibble b) with
    | .z i => exec i s
    | .p => .next (openPush s)
    | .d => if (openDefine s).pend = 0#8 then dispatch 0b0011#4 (openDefine s) else .next (openDefine s)

/-- `Feed(b)` while an operand is awaited (R101). -/
def feedOperand (b : Byte) (s : State) : Host.Outcome State Fault Refusal :=
  if (collectOperand b s).pend = 0#8 then dispatch s.curOp (collectOperand b s)
  else .next (collectOperand b s)

/-- `Feed(b)`: the decoder is awaiting an opcode exactly when `pend == 0` (10_state.md R24). -/
def feed (b : Byte) (s : State) : Host.Outcome State Fault Refusal :=
  if s.pend = 0#8 then feedOpcode b s else feedOperand b s

end Sys2Proof.Machine
end

