-- ==== Sys2Proof/Machine/Engine.lean ====
section
/-! DEFINITION. The step of the core (45_control_flow.md R170), its input handshake (00_scope.md R8), and how an
instruction is placed where the next step takes it. -/

namespace Sys2Proof.Machine

/-- A step at top level: the next input symbol is consumed and fed; with none there is no step, and the core holds all
state (R170, 60_exceptions.md R212; log 2). -/
def topLevelStep (s : State) : Host.Outcome State Fault Refusal :=
  match s.input with
  | [] => .next s
  | n :: rest => feed (zext8 n) { s with input := rest }

/-- A step inside a procedure instance: the byte at `pc` is fetched and fed, `pc` being incremented first; there is nothing
to fetch at 256 (R170). -/
def procedureStep (s : State) : Host.Outcome State Fault Refusal :=
  if s.pc.val = Config.codeCap then .next (abort .fetchOob s)
  else feed (csFetch s.pc.val s) { s with pc := countUp s.pc }

/-- One step of the core (R14, R170), or the reset the environment asks for (70_reset_and_hazards.md R230). -/
def coreStep (s : State) : Host.Outcome State Fault Refusal :=
  if s.rst then .next (assertRst s)
  else if s.depth = 0 then topLevelStep s
  else procedureStep s

/-- How many symbols the instruction with opcode `op` has when the decoder meets it in `s` (30_encoding.md R91). -/
def symbolCount (op : Nibble) (s : State) : Nat := 1 + inlineCount op (stackPop s).1.toNat

/-- Puts symbols where the next steps take them, with the decoder awaiting an opcode: in the code store at `pc` if a
procedure is running and they fit there, else in front of the input collaborator's symbols at top level (log 8). -/
def placeSymbols (symbols : List Nibble) (s : State) : State :=
  if 0 < s.depth ∧ s.pc.val + symbols.length ≤ 256 then
    { s with code := s.code.writeAll s.pc.val (symbols.map zext8), pend := 0#8, rst := false }
  else { s with input := symbols ++ s.input, depth := 0, pend := 0#8, rst := false }

/-- Places the instruction whose bits are `w`, as long as the decoder will take it to be in `s`; bits above `nbits` are 0. -/
def placeTableWord (nbits w : Nat) (s : State) : State :=
  placeSymbols (tableSymbols nbits w (symbolCount (tableSymbol nbits w 0) s)) s

end Sys2Proof.Machine
end

