-- ==== Sys2Proof/Machine/Step.lean ====
section
/-! DEFINITION. One step of the machine, and how the host stores the instruction the next step begins. -/

namespace Sys2Proof.Machine

/-- One step (45_control_flow.md R170): one symbol fed to the decoder, and everything it completes (00_scope.md R14). -/
def step (s : State) : Host.Outcome State Fault Refusal := coreStep s

/-- `s` with the instruction whose bits are `w` placed where the next step takes its symbol (log 8, log 9). -/
def State.withFetchWord (s : State) (nbits w : Nat) : State := placeTableWord nbits w s

end Sys2Proof.Machine
end

