-- ==== Sys2Proof/Machine/Ports.lean ====
section
/-! DEFINITION. The signals the block drives, each a function of its state or of an event (00_scope.md R8 to R10,
10_state.md R35). -/

namespace Sys2Proof.Machine

/-- `busy` (R10, R35): a called or jumped-to procedure is executing. -/
def State.busy (s : State) : Bool := decide (0 < s.depth)

/-- `in_ready` between steps (R8, R35). -/
def State.inReady (s : State) : Bool := decide (s.depth = 0)

/-- `in_valid` (R8): the collaborator is presenting a symbol. -/
def State.inValid (s : State) : Bool := !s.input.isEmpty

/-- `ev_kind[1:0]` of an event (R9); 3 is never driven. -/
def Event.kind : Event → BitVec 2
  | .display _ => 0#2
  | .execBegin => 1#2
  | .execEnd => 2#2

/-- `ev_val[7:0]` of an event (R9): meaningful for `Display` only. -/
def Event.value : Event → Option Byte
  | .display v => some v
  | .execBegin | .execEnd => none

/-- The source's write cursor, `hp - 1` (10_state.md R22): the address the next byte is written at, none when the arena is
full. -/
def State.cursor (s : State) : Option Nat := if s.hp.val = 0 then none else some (s.hp.val - 1)

end Sys2Proof.Machine
end

