-- ==== Sys2Proof/Safety.lean ====
section
/-! DEFINITION. What claims are stated in: the live cells of the operand stack, the invariants of 10_state.md R34, and when
two states cannot be told apart (R32). -/

namespace Sys2Proof.Machine

/-- The cells in use, base first: `S[0]` to `S[sp-1]` (10_state.md R21; the notation `[v0, .., top]` of 95_test_vectors.md). -/
def State.cells (s : State) : List Byte := (List.range s.sp.val).map s.cell

/-- What `StackPop` answers and leaves (20_memory.md R52), said of the cells alone: popping `cells` gives `b` and leaves
`base`; an empty stack gives 0 and stays empty. -/
def PopsTo (cells base : List Byte) (b : Byte) : Prop :=
  cells = base ++ [b] ∨ (cells = [] ∧ base = [] ∧ b = 0#8)

/-- The cells after `values` were pushed one by one on `cells`: those for which the stack had no room are dropped (20_memory.md
R51). -/
def cellsPushed (cells values : List Byte) : List Byte := (cells ++ values).take Config.stackCap

/-- The next step takes the value `b` (45_control_flow.md R170), and `u` is the state in which it is fed: at top level the next
input symbol, consumed; inside a procedure the byte at `pc`, `pc` having moved past it. -/
def Takes (s : State) (b : Byte) (u : State) : Prop :=
  s.rst = false ∧
    ((s.depth = 0 ∧ ∃ n rest, s.input = n :: rest ∧ b = zext8 n ∧ u = { s with input := rest }) ∨
     (0 < s.depth ∧ s.pc.val < 256 ∧ b = csFetch s.pc.val s ∧
       ∃ p : Count, p.val = s.pc.val + 1 ∧ u = { s with pc := p }))

/-- The state invariant: the items of R34 that speak of one state, the canonical form of the two memories, and what their
proof needs of the frames in use (R27: a `.ret_pc` pushed from inside a procedure is never 256). -/
structure Inv (s : State) : Prop where
  stackWf : Memory.wf s.stack
  codeWf : Memory.wf s.code
  /-- Every cell in use has been pushed (R21). -/
  stackWritten : ∀ i, i < s.sp.val → (s.stack.read i).isSome
  /-- Exactly the bytes at `hp` and above have been written (R22, R34 item 3). -/
  codeWritten : ∀ a, (s.code.read a).isSome ↔ s.hp.val ≤ a ∧ a < 256
  /-- R34 item 4. -/
  topMarker : s.hp.val < 256 → s.code.read 255 = some Config.retMarker
  /-- R34 item 5 (its marker is the one of item 4). -/
  tableAddr : ∀ k (h : k < 16), s.gt[k].valid = true → s.hp.val ≤ s.gt[k].addr.toNat
  /-- R34 item 6. -/
  waiting : s.pend ≠ 0#8 → s.curOp = 0b0001#4 ∨ s.curOp = 0b0011#4
  /-- R6: `RS_DEPTH` is positive. -/
  rsDepthPositive : 0 < s.rsDepth
  /-- R34 item 8. -/
  depthBound : s.depth ≤ s.rsDepth
  pcAbove : 0 < s.depth → s.hp.val ≤ s.pc.val
  /-- R27: the resume address of an instance that was entered from inside a procedure. -/
  retAbove : ∀ k, 0 < k → k < s.depth → s.hp.val ≤ (s.frame k).retPc.val ∧ (s.frame k).retPc.val < 256

/-- R34 item 9, with what its proof needs of a `define` whose body is being collected: as long as no push was dropped, every
code byte is a symbol, and the body symbols collected so far lie on top of the stack. -/
structure SymbolInv (s : State) : Prop where
  codeSymbols : s.hasFault .stkOvf = false → ∀ a, s.hp.val ≤ a → a < 256 → (csFetch a s).toNat < 16
  bodySymbols : s.hasFault .stkOvf = false → s.pend ≠ 0#8 → s.curOp = 0b0011#4 →
    s.pend.toNat ≤ s.defN.toNat ∧ s.defN.toNat - s.pend.toNat ≤ s.sp.val ∧
      ∀ i, s.sp.val - (s.defN.toNat - s.pend.toNat) ≤ i → i < s.sp.val → (s.cell i).toNat < 16

/-- 45_control_flow.md R178: begins minus ends is the depth. -/
def EventsBalanced (s : State) : Prop :=
  s.events.count .execBegin = s.events.count .execEnd + s.depth

/-- Two states that differ at most in what R32 and 93_implementation_defined.md I22, I23 call unobservable: cells at or above
`sp`, code bytes below `hp`, addresses of unassigned entries, frames at or above `depth`, the resume address of the outermost
frame, `pc` at top level, `cur_op` while an opcode is awaited, and `def_n` unless a body is being collected. -/
structure SameObservable (s t : State) : Prop where
  sp : s.sp = t.sp
  hp : s.hp = t.hp
  pend : s.pend = t.pend
  depth : s.depth = t.depth
  rsDepth : s.rsDepth = t.rsDepth
  fault : s.fault = t.fault
  input : s.input = t.input
  events : s.events = t.events
  rst : s.rst = t.rst
  stack : ∀ i, i < s.sp.val → s.cell i = t.cell i
  code : ∀ a, s.hp.val ≤ a → a < 256 → csFetch a s = csFetch a t
  tableValid : ∀ k (h : k < 16), s.gt[k].valid = t.gt[k].valid
  tableAddr : ∀ k (h : k < 16), s.gt[k].valid = true → s.gt[k].addr = t.gt[k].addr
  collecting : s.pend ≠ 0#8 → s.curOp = t.curOp ∧ (s.curOp = 0b0011#4 → s.defN = t.defN)
  pc : 0 < s.depth → s.pc = t.pc
  frameTail : ∀ k, k < s.depth → (s.frame k).tail = (t.frame k).tail
  frameRet : ∀ k, 0 < k → k < s.depth → (s.frame k).retPc = (t.frame k).retPc

/-- The bytes the engine would fetch from address `a` on, up to the top of the code store. -/
def codeFrom (s : State) (a : Nat) : List Byte := (List.range (256 - a)).map fun k => csFetch (a + k) s

end Sys2Proof.Machine
end

