-- ==== Sys2Proof/Certificates/Slice0/Obligations.lean ====
section
/-! DEFINITION. The statements for the provers. -/

open Sys2Proof Sys2Proof.Machine

/-! ### Encoding -/

/-- 30_encoding.md R81, R85: reading the encoding of a well-formed instruction gives it back, whatever follows it; a `define`
is read with the size its body has (R91). -/
def Obligations.DecodeInvertsEncode : Prop :=
  ∀ (i : Instr) (size : Nat) (rest : List Byte), i.wellFormed = true →
    (∀ body, i = .define body → body.length = size) →
    decode size (fedBytes i ++ rest) = .instr i rest

/-- 30_encoding.md R81, R85: an instruction read from symbols is well-formed, and its encoding is the symbols it was read
from. -/
def Obligations.EncodeInvertsDecode : Prop :=
  ∀ (size : Nat) (bs : List Byte) (i : Instr) (rest : List Byte), size ≤ 255 → (∀ b ∈ bs, b.toNat < 16) →
    decode size bs = .instr i rest → i.wellFormed = true ∧ fedBytes i ++ rest = bs

/-- 30_encoding.md R85, R91: words written out from the opcode map. -/
def Obligations.OpcodeMapWords : Prop :=
  decode 0 [0b0000#8] = .instr .noop [] ∧
  decode 9 [0b0001#8, 0b0111#8] = .instr (.push 7#8) [] ∧
  decode 0 [0b0010#8, 0b0010#8] = .instr .add [0b0010#8] ∧
  decode 3 [0b0011#8, 1#8, 1#8, 2#8] = .instr (.define [1#8, 1#8, 2#8]) [] ∧
  decode 0 [0b0011#8, 1#8, 1#8, 2#8] = .instr (.define []) [1#8, 1#8, 2#8] ∧
  decode 0 [0b0100#8] = .instr .ret [] ∧
  decode 0 [0b0111#8] = .instr .showTop [] ∧
  decode 0 [0b1001#8] = .instr .copy [] ∧
  decode 0 [0b1010#8] = .instr .sub [] ∧
  decode 0 [0b1011#8] = .instr .jnz [] ∧
  decode 0 [0b1111#8, 1#8] = .instr .page2 [1#8] ∧
  decode 0 [0x10#8] = .rejected (.unknownOpcode 0x10#8)

/-- 40_decoder_push_nop.md R107: a value of 16 or more is ignored where an opcode is awaited, and pushed whole where an
operand is awaited. -/
def Obligations.ValuesAboveFifteen : Prop :=
  ∀ (b : Byte) (s : State), 16 ≤ b.toNat →
    (s.pend = 0#8 → feed b s = .next s) ∧
    (s.pend ≠ 0#8 → s.sp.val < 256 →
      (collectOperand b s).cells = s.cells ++ [b] ∧
      feed b s = if s.pend = 1#8 then dispatch s.curOp (collectOperand b s) else .next (collectOperand b s))

/-! ### The primitives of the operand stack and the table -/

/-- 20_memory.md R51: a push writes cell `sp` and no other, or is dropped on a full stack, which sets STK_OVF and nothing
else. -/
def Obligations.StackPushAddsOrDrops : Prop :=
  ∀ (b : Byte) (s : State),
    (s.sp.val = 256 → stackPush b s = raise .stkOvf s) ∧
    (s.sp.val < 256 → ∃ t, stackPush b s = t ∧ t.cells = s.cells ++ [b] ∧ t.sp.val = s.sp.val + 1 ∧
      t = { s with stack := t.stack, sp := t.sp } ∧
      ∀ j, j ≠ s.sp.val → t.stack.read j = s.stack.read j)

/-- 20_memory.md R52: a pop answers the top cell, which stays in `S` but not in the stack; an empty stack answers 0 and is
unchanged. -/
def Obligations.StackPopTakesTop : Prop :=
  ∀ (s : State),
    (s.cells = [] → stackPop s = (0#8, s)) ∧
    (∀ base b, s.cells = base ++ [b] →
      ∃ sp, stackPop s = (b, { s with sp := sp }) ∧ sp.val = s.sp.val - 1 ∧ (stackPop s).2.cells = base)

/-- 20_memory.md R53: a peek answers the cell that far below the top, 0 out of range. -/
def Obligations.StackPeekReadsOffset : Prop :=
  ∀ (off : Byte) (s : State), stackPeek off s = s.cells.reverse.getD off.toNat 0#8

/-- 20_memory.md R54: remove-at deletes the cell that far below the top, clamped to the base, keeping the order of the
others; nothing on an empty stack. -/
def Obligations.StackRemoveAtClamps : Prop :=
  ∀ (off : Byte) (s : State),
    (s.cells = [] → stackRemoveAt off s = s) ∧
    (s.cells ≠ [] → ∃ t, stackRemoveAt off s = t ∧
      t.cells = s.cells.eraseIdx (s.cells.length - 1 - min off.toNat (s.cells.length - 1)) ∧
      t.sp.val = s.sp.val - 1 ∧ t = { s with stack := t.stack, sp := t.sp } ∧
      ∀ j, j < removeIndex off s ∨ s.sp.val - 1 ≤ j → t.stack.read j = s.stack.read j)

/-- 20_memory.md R58: the slot range is tested first, then validity; an invalid lookup sets its bit. -/
def Obligations.SlotLookup : Prop :=
  ∀ (slot : Byte) (s : State),
    (16 ≤ slot.toNat → gtLookup slot s = (none, raise .badSlot s)) ∧
    (∀ h : slot.toNat < 16,
      (s.gt[slot.toNat].valid = false → gtLookup slot s = (none, raise .undefSlot s)) ∧
      (s.gt[slot.toNat].valid = true → gtLookup slot s = (some s.gt[slot.toNat].addr, s)))

/-! ### The instructions: what each does, and what it leaves unchanged -/

/-- 40_decoder_push_nop.md R103, R105, R106: `cur_op` is the only state element written, and what follows `page2` is no part of
it. -/
def Obligations.NoEffectInstructions : Prop :=
  ∀ (s : State),
    exec .noop s = .next { s with curOp := 0b0000#4 } ∧
    exec .rsv12 s = .next { s with curOp := 0b1100#4 } ∧
    exec .rsv13 s = .next { s with curOp := 0b1101#4 } ∧
    exec .rsv14 s = .next { s with curOp := 0b1110#4 } ∧
    exec .page2 s = .next { s with curOp := 0b1111#4 } ∧
    ∀ rest, decode 0 (0b1111#8 :: rest) = .instr .page2 rest

/-- 40_decoder_push_nop.md R104: the operand is pushed; on a full stack it is dropped and STK_OVF is set. -/
def Obligations.PushResult : Prop :=
  ∀ (imm : Byte) (s : State), ∃ t, exec (.push imm) s = .next t ∧
    (s.sp.val < 256 → t.cells = s.cells ++ [imm] ∧
      t = { s with stack := t.stack, sp := t.sp, curOp := 0b0001#4, pend := 0#8 }) ∧
    (s.sp.val = 256 → t = { raise .stkOvf s with curOp := 0b0001#4, pend := 0#8 }) ∧
    ∀ j, j ≠ s.sp.val → t.stack.read j = s.stack.read j

/-- 41_arith.md R120: two pops and the push of the sum modulo 256; a missing operand is 0, and an empty stack gains a 0. -/
def Obligations.AddResult : Prop :=
  ∀ (s : State), ∃ t, exec .add s = .next t ∧
    (∀ mid base a b, PopsTo s.cells mid a → PopsTo mid base b →
      t.cells = base ++ [BitVec.ofNat 8 ((a.toNat + b.toNat) % 256)]) ∧
    t = { s with stack := t.stack, sp := t.sp, curOp := 0b0010#4 } ∧
    ∀ j, j ≠ (popTwo (acceptOpcode 0b0010#4 s)).2.2.sp.val → t.stack.read j = s.stack.read j

/-- 41_arith.md R121: the top cell is subtracted from the one below it, modulo 256; a missing operand is 0. -/
def Obligations.SubResult : Prop :=
  ∀ (s : State), ∃ t, exec .sub s = .next t ∧
    (∀ mid base x y, PopsTo s.cells mid x → PopsTo mid base y →
      t.cells = base ++ [BitVec.ofInt 8 (((y.toNat : Int) - x.toNat) % 256)]) ∧
    t = { s with stack := t.stack, sp := t.sp, curOp := 0b1010#4 } ∧
    ∀ j, j ≠ (popTwo (acceptOpcode 0b1010#4 s)).2.2.sp.val → t.stack.read j = s.stack.read j

/-- 42_stack_manip.md R130: the offset is popped, and the cell that far below the new top is removed, the base cell if it
would lie below the base; nothing is removed from an empty stack. -/
def Obligations.DelResult : Prop :=
  ∀ (s : State), ∃ t, exec .del s = .next t ∧
    (∀ base off, PopsTo s.cells base off →
      t.cells = base.eraseIdx (base.length - 1 - min off.toNat (base.length - 1))) ∧
    t = { s with stack := t.stack, sp := t.sp, curOp := 0b1000#4 } ∧
    ∀ j, j < removeIndex (stackPop (acceptOpcode 0b1000#4 s)).1 (stackPop (acceptOpcode 0b1000#4 s)).2 ∨
        (stackPop (acceptOpcode 0b1000#4 s)).2.sp.val - 1 ≤ j →
      t.stack.read j = s.stack.read j

/-- 42_stack_manip.md R131: the offset is popped, and the cell that far below the new top is pushed, 0 out of range. -/
def Obligations.CopyResult : Prop :=
  ∀ (s : State), ∃ t, exec .copy s = .next t ∧
    (∀ base off, PopsTo s.cells base off → t.cells = base ++ [base.reverse.getD off.toNat 0#8]) ∧
    t = { s with stack := t.stack, sp := t.sp, curOp := 0b1001#4 } ∧
    ∀ j, j ≠ (stackPop (acceptOpcode 0b1001#4 s)).2.sp.val → t.stack.read j = s.stack.read j

/-- 43_output.md R140: a display event with the depth of the stack, at most 15, and nothing else. -/
def Obligations.StackcountResult : Prop :=
  ∀ (s : State), exec .stackcount s = .next { s with
    curOp := 0b0110#4, events := s.events ++ [.display (BitVec.ofNat 8 (min s.cells.length 15))] }

/-- 43_output.md R141: a display event with the top cell, 0 if there is none, and nothing else: the cell is not popped. -/
def Obligations.ShowResult : Prop :=
  ∀ (s : State), exec .showTop s = .next { s with
    curOp := 0b0111#4, events := s.events ++ [.display (s.cells.getLastD 0#8)] }

/-- 44_define.md R152: what a successful commit leaves in the code store and the table: the body below the old `hp - 1`, the
marker there, the entry address in the slot and in `hp`. -/
def Obligations.CommitLaysOutBody : Prop :=
  ∀ (s : State) (mid base body : List Byte) (slot : Byte),
    s.cells = mid ++ body → body.length = s.defN.toNat → PopsTo mid base slot →
    body.length + 1 ≤ s.hp.val → ∀ h : slot.toNat < 16,
    ∃ t, defineCommit s = t ∧ t.cells = base ∧
      t.hp.val = s.hp.val - (body.length + 1) ∧
      t.code.read (s.hp.val - 1) = some 4#8 ∧
      (∀ k, k < body.length → t.code.read (s.hp.val - 1 - body.length + k) = body[k]?) ∧
      (∀ a, a < t.hp.val ∨ s.hp.val ≤ a → t.code.read a = s.code.read a) ∧
      t.gt[slot.toNat] = ⟨true, BitVec.ofNat 8 t.hp.val⟩ ∧
      (∀ k (hk : k < 16), k ≠ slot.toNat → t.gt[k] = s.gt[k]) ∧
      t = { s with sp := t.sp, code := t.code, hp := t.hp, gt := t.gt }

/-- 44_define.md R153: a commit that does not fit, or whose slot is 16 or more, only pops, and sets the bit of each failing
check. -/
def Obligations.CommitRejects : Prop :=
  ∀ (s : State) (mid base body : List Byte) (slot : Byte),
    s.cells = mid ++ body → body.length = s.defN.toNat → PopsTo mid base slot →
    (s.hp.val < body.length + 1 ∨ 16 ≤ slot.toNat) →
    ∃ t, defineCommit s = t ∧ t.cells = base ∧
      t = { s with sp := t.sp, fault := t.fault } ∧
      (t.hasFault .csFull = (s.hasFault .csFull || decide (s.hp.val < body.length + 1))) ∧
      (t.hasFault .badSlot = (s.hasFault .badSlot || decide (16 ≤ slot.toNat))) ∧
      ∀ b, b ≠ .csFull → b ≠ .badSlot → t.hasFault b = s.hasFault b

/-- 44_define.md R151, R152: a `define` that fits stores its body and the marker below `hp`, in typed order, records the entry
address, and moves `hp` there; size and slot are popped (0 from a short stack, R156). -/
def Obligations.DefineStoresProcedure : Prop :=
  ∀ (s : State) (body mid base : List Byte) (size slot : Byte),
    PopsTo s.cells mid size → PopsTo mid base slot → body.length = size.toNat → mid.length + body.length ≤ 256 →
    body.length + 1 ≤ s.hp.val → ∀ h : slot.toNat < 16,
    ∃ t, exec (.define body) s = .next t ∧ t.cells = base ∧
      t.hp.val = s.hp.val - (body.length + 1) ∧
      (∀ k, k < body.length → t.code.read (t.hp.val + k) = body[k]?) ∧
      t.code.read (s.hp.val - 1) = some 4#8 ∧
      (∀ a, a < t.hp.val ∨ s.hp.val ≤ a → t.code.read a = s.code.read a) ∧
      t.gt[slot.toNat] = ⟨true, BitVec.ofNat 8 t.hp.val⟩ ∧
      (∀ k (hk : k < 16), k ≠ slot.toNat → t.gt[k] = s.gt[k]) ∧
      t = { s with
        stack := t.stack, sp := t.sp, code := t.code, hp := t.hp, gt := t.gt
        curOp := 0b0011#4, pend := 0#8, defN := size } ∧
      ∀ j, j < mid.length ∨ mid.length + body.length ≤ j → t.stack.read j = s.stack.read j

/-- 44_define.md R153: a `define` that does not fit, or whose slot is 16 or more, is rejected as a whole after its pops; each
failing check sets its bit. -/
def Obligations.DefineRejected : Prop :=
  ∀ (s : State) (body mid base : List Byte) (size slot : Byte),
    PopsTo s.cells mid size → PopsTo mid base slot → body.length = size.toNat → mid.length + body.length ≤ 256 →
    (s.hp.val < body.length + 1 ∨ 16 ≤ slot.toNat) →
    ∃ t, exec (.define body) s = .next t ∧ t.cells = base ∧
      t = { s with
        stack := t.stack, sp := t.sp, fault := t.fault, curOp := 0b0011#4, pend := 0#8, defN := size } ∧
      (t.hasFault .csFull = (s.hasFault .csFull || decide (s.hp.val < body.length + 1))) ∧
      (t.hasFault .badSlot = (s.hasFault .badSlot || decide (16 ≤ slot.toNat))) ∧
      (∀ b, b ≠ .csFull → b ≠ .badSlot → t.hasFault b = s.hasFault b) ∧
      ∀ j, j < mid.length ∨ mid.length + body.length ≤ j → t.stack.read j = s.stack.read j

/-- 44_define.md R151, R156 (c): a `define` with a body of the size popped commits with what is then on the stack: the body
above the older cells, less the pushes dropped on a full stack, for which STK_OVF is set. What the commit makes of those
cells, Obligations.CommitLaysOutBody and CommitRejects say for every state. -/
def Obligations.DefineCollectsBodyThenCommits : Prop :=
  ∀ (s : State) (body mid : List Byte) (size : Byte), PopsTo s.cells mid size → body.length = size.toNat →
    ∃ u, exec (.define body) s = .next (defineCommit u) ∧
      u.cells = cellsPushed mid body ∧
      u = { s with
        stack := u.stack, sp := u.sp, fault := u.fault, curOp := 0b0011#4, pend := 0#8, defN := size } ∧
      u.fault = (if mid.length + body.length ≤ 256 then s.fault else (raise .stkOvf s).fault) ∧
      ∀ j, j < mid.length ∨ mid.length + body.length ≤ j → u.stack.read j = s.stack.read j

/-- 44_define.md R151, R156: what a `define` leaves unchanged in every case, dropped pushes included: of the table, every entry
but that of the slot popped after the body. That a body shorter than the size popped defines nothing, and that of a longer one
the symbols past the size are ignored, is the model's choice (log 8). -/
def Obligations.DefineFrame : Prop :=
  ∀ (s : State) (body : List Byte), ∃ t, exec (.define body) s = .next t ∧
    t = { s with
      stack := t.stack, sp := t.sp, code := t.code, hp := t.hp, gt := t.gt, fault := t.fault
      curOp := 0b0011#4, pend := t.pend, defN := t.defN } ∧
    t.hp.val ≤ s.hp.val ∧
    (∀ a, a < t.hp.val ∨ s.hp.val ≤ a → t.code.read a = s.code.read a) ∧
    (t.hp = s.hp → t.code = s.code ∧ t.gt = s.gt) ∧
    (∀ k (hk : k < 16), t.gt[k] = s.gt[k] ∨ t.gt[k] = ⟨true, BitVec.ofNat 8 t.hp.val⟩) ∧
    (∀ (mid below stored base : List Byte) (size slot : Byte), PopsTo s.cells mid size → size.toNat ≤ body.length →
      cellsPushed mid (body.take size.toNat) = below ++ stored → stored.length = size.toNat → PopsTo below base slot →
      ∀ k (hk : k < 16), k ≠ slot.toNat → t.gt[k] = s.gt[k]) ∧
    (∀ (mid : List Byte) (size : Byte), PopsTo s.cells mid size → body.length < size.toNat → t.hp = s.hp) ∧
    (∀ b, b ≠ .stkOvf → b ≠ .csFull → b ≠ .badSlot → t.hasFault b = s.hasFault b) ∧
    ∀ j, j < (openDefine s).sp.val → t.stack.read j = s.stack.read j

/-- 45_control_flow.md R176: at top level `ret` does nothing. -/
def Obligations.RetAtTopLevel : Prop :=
  ∀ (s : State), s.depth = 0 → exec .ret s = .next { s with curOp := 0b0100#4 }

/-- 45_control_flow.md R174, R175: `ret` pops the innermost frame and every caller across tail frames, one `ExecEnd` each; it
resumes the first caller that a call frame holds, or ends at top level if there is none. -/
def Obligations.RetUnwindsTailFrames : Prop :=
  (∀ (s : State) (c n : Nat), s.depth = c + 1 + n →
    (∀ k, c < k → k < s.depth → (s.frame k).tail = true) → (s.frame c).tail = false →
    exec .ret s = .next { s with
      curOp := 0b0100#4, depth := c, pc := (s.frame c).retPc
      events := s.events ++ List.replicate (n + 1) .execEnd }) ∧
  (∀ (s : State), (∀ k, k < s.depth → (s.frame k).tail = true) →
    exec .ret s = .next { s with
      curOp := 0b0100#4, depth := 0, events := s.events ++ List.replicate s.depth .execEnd })

/-- 45_control_flow.md R171, R172: `call` of an assigned slot, with room, pops the slot, pushes a call frame holding the
resume address, and enters the procedure; the return stack keeps its `RS_DEPTH` frames (R33). -/
def Obligations.CallEntersProcedure : Prop :=
  ∀ (s : State) (base : List Byte) (slot : Byte), PopsTo s.cells base slot → ∀ h : slot.toNat < 16,
    s.gt[slot.toNat].valid = true → s.depth < s.rsDepth →
    ∃ t, exec .call s = .next t ∧ t.cells = base ∧ t.depth = s.depth + 1 ∧
      t.pc.val = s.gt[slot.toNat].addr.toNat ∧ t.rsDepth = s.rsDepth ∧ t.frame s.depth = ⟨s.pc, false⟩ ∧
      (∀ k, k ≠ s.depth → t.frame k = s.frame k) ∧
      t = { s with
        sp := t.sp, pc := t.pc, rs := t.rs, depth := t.depth
        curOp := 0b0101#4, events := s.events ++ [.execBegin] }

/-- 45_control_flow.md R173: a test value of 0, or fewer than two cells, falls through; the slot is not looked up. -/
def Obligations.JnzNotTaken : Prop :=
  ∀ (s : State) (mid base : List Byte) (slot : Byte), PopsTo s.cells mid slot → PopsTo mid base 0#8 →
    ∃ t, exec .jnz s = .next t ∧ t.cells = base ∧ t = { s with sp := t.sp, curOp := 0b1011#4 }

/-- 45_control_flow.md R171, R173: a test value that is not 0 enters the target slot under a tail frame; the return
stack keeps its `RS_DEPTH` frames (R33). -/
def Obligations.JnzTakenEntersTail : Prop :=
  ∀ (s : State) (mid base : List Byte) (slot test : Byte), PopsTo s.cells mid slot → PopsTo mid base test →
    test ≠ 0#8 → ∀ h : slot.toNat < 16, s.gt[slot.toNat].valid = true → s.depth < s.rsDepth →
    ∃ t, exec .jnz s = .next t ∧ t.cells = base ∧ t.depth = s.depth + 1 ∧
      t.pc.val = s.gt[slot.toNat].addr.toNat ∧ t.rsDepth = s.rsDepth ∧ t.frame s.depth = ⟨s.pc, true⟩ ∧
      (∀ k, k ≠ s.depth → t.frame k = s.frame k) ∧
      t = { s with
        sp := t.sp, pc := t.pc, rs := t.rs, depth := t.depth
        curOp := 0b1011#4, events := s.events ++ [.execBegin] }

/-- 45_control_flow.md R177: `call` or a taken `jnz` of a slot out of range or unassigned enters nothing; the pops are done and
the bit is set, and a taken `jnz` then terminates the current body. -/
def Obligations.InvalidSlotEntersNothing : Prop :=
  (∀ (s : State) (base : List Byte) (slot : Byte), PopsTo s.cells base slot →
    (16 ≤ slot.toNat → ∃ t, exec .call s = .next t ∧ t.cells = base ∧
      t = { raise .badSlot s with sp := t.sp, curOp := 0b0101#4 }) ∧
    (∀ h : slot.toNat < 16, s.gt[slot.toNat].valid = false → ∃ t, exec .call s = .next t ∧ t.cells = base ∧
      t = { raise .undefSlot s with sp := t.sp, curOp := 0b0101#4 })) ∧
  (∀ (s : State) (mid base : List Byte) (slot test : Byte), PopsTo s.cells mid slot → PopsTo mid base test →
    test ≠ 0#8 →
    (16 ≤ slot.toNat → ∃ u t, exec .jnz s = .next t ∧ t = terminate u ∧ t.cells = base ∧
      u = { raise .badSlot s with sp := u.sp, curOp := 0b1011#4 }) ∧
    (∀ h : slot.toNat < 16, s.gt[slot.toNat].valid = false → ∃ u t, exec .jnz s = .next t ∧ t = terminate u ∧
      t.cells = base ∧ u = { raise .undefSlot s with sp := u.sp, curOp := 0b1011#4 }))

/-- 45_control_flow.md R171, 60_exceptions.md R202: `call` and a taken `jnz` of an assigned slot on a full return stack abort
to top level; their pops are not undone. -/
def Obligations.FullReturnStackAborts : Prop :=
  (∀ (s : State) (base : List Byte) (slot : Byte), PopsTo s.cells base slot → ∀ h : slot.toNat < 16,
    s.gt[slot.toNat].valid = true → s.depth = s.rsDepth →
    ∃ t, exec .call s = .next t ∧ t.cells = base ∧
      t = { raise .rsOvf s with
        sp := t.sp, curOp := 0b0101#4, depth := 0, pend := 0#8
        events := s.events ++ List.replicate s.depth .execEnd }) ∧
  (∀ (s : State) (mid base : List Byte) (slot test : Byte), PopsTo s.cells mid slot → PopsTo mid base test →
    test ≠ 0#8 → ∀ h : slot.toNat < 16, s.gt[slot.toNat].valid = true → s.depth = s.rsDepth →
    ∃ t, exec .jnz s = .next t ∧ t.cells = base ∧
      t = { raise .rsOvf s with
        sp := t.sp, curOp := 0b1011#4, depth := 0, pend := 0#8
        events := s.events ++ List.replicate s.depth .execEnd })

/-- 60_exceptions.md R202: the abort sets its bit alone, pops every frame with one `ExecEnd` each, clears `pend`, and leaves
everything else. -/
def Obligations.AbortUnwindsEverything : Prop :=
  ∀ (b : FaultBit) (s : State), ∃ t, abort b s = t ∧ t.hasFault b = true ∧
    (∀ c, c ≠ b → t.hasFault c = s.hasFault c) ∧
    t = { s with
      fault := t.fault, depth := 0, pend := 0#8, events := s.events ++ List.replicate s.depth .execEnd }

/-- 42_stack_manip.md R132: dup, drop, over, nip and swap, built from `push`, `copy` and `del`. -/
def Obligations.StackWordsFromCopyAndDel : Prop :=
  ∀ (s : State) (base : List Byte) (a b : Byte), s.cells = base ++ [a, b] → s.sp.val ≤ 254 →
    let run := fun (is : List Instr) =>
      is.foldl (fun (o : Host.Outcome State Fault Refusal) i => match o with | .next u => exec i u | o => o) (.next s)
    (∃ t, run pseudoDup = .next t ∧ t.cells = base ++ [a, b, b]) ∧
    (∃ t, run pseudoDrop = .next t ∧ t.cells = base ++ [a]) ∧
    (∃ t, run (pseudoCopy 1#4) = .next t ∧ t.cells = base ++ [a, b, a]) ∧
    (∃ t, run (pseudoDel 1#4) = .next t ∧ t.cells = base ++ [b]) ∧
    (∃ t, run (pseudoCopy 1#4 ++ pseudoDel 2#4) = .next t ∧ t.cells = base ++ [b, a])

/-! ### The step -/

/-- 10_state.md R32: the reset values the spec gives. -/
def Obligations.ResetValues : Prop :=
  ∀ (d : Nat), ∃ s, State.resetWith d = s ∧ s.sp.val = 0 ∧ s.hp.val = 256 ∧
    (∀ k (h : k < 16), s.gt[k].valid = false) ∧ s.curOp = 0#4 ∧ s.pend = 0#8 ∧ s.defN = 0#8 ∧ s.pc.val = 0 ∧
    s.depth = 0 ∧ s.rsDepth = d ∧ s.fault = 0#6 ∧ s.events = [] ∧ s.busy = false ∧ s.inReady = true

/-- 70_reset_and_hazards.md R230: asserting `rst` discards the step and puts every state element at its reset value; the
block keeps its `RS_DEPTH` and the collaborator its symbols (log 3). -/
def Obligations.ResetRequest : Prop :=
  ∀ (s : State), s.rst = true → step s = .next { State.resetWith s.rsDepth with input := s.input }

/-- 45_control_flow.md R170: one step feeds one symbol: the next input symbol at top level, the byte at `pc` inside a
procedure, `pc` being incremented first; at 256 it aborts. -/
def Obligations.StepFeedsOneSymbol : Prop :=
  (∀ (s u : State) (b : Byte), Takes s b u → step s = feed b u) ∧
  (∀ (s : State), s.rst = false → 0 < s.depth → s.pc.val = 256 → step s = .next (abort .fetchOob s))

/-- 60_exceptions.md R212: at top level without a symbol the core holds all state; that the model's step then gives the same
state back, the spec having no step there, is the model's choice (log 2). -/
def Obligations.IdleCoreHoldsState : Prop :=
  ∀ (s : State), s.rst = false → s.inReady = true → s.inValid = false → step s = .next s

/-- 40_decoder_push_nop.md R100, 45_control_flow.md R170: where an opcode is awaited, the step that takes an opcode of format
Z is the whole instruction; the opcode of `push` opens the wait for one operand; the opcode of `define` pops the size, latches
it, and opens the wait for as many operands, or commits at once if it is 0; a value of 16 or more is ignored. After a format Z
instruction and after a `define` of size 0 the decoder awaits an opcode again. -/
def Obligations.StepRunsDecodedInstruction : Prop :=
  ∀ (s u : State) (b : Byte), Takes s b u → s.pend = 0#8 →
    (16 ≤ b.toNat → step s = .next u) ∧
    (∀ i, decode 0 [b] = .instr i [] → b ≠ 3#8 → step s = exec i u ∧ ∃ t, step s = .next t ∧ t.pend = 0#8) ∧
    (b = 1#8 → step s = .next { u with curOp := 0b0001#4, pend := 1#8 }) ∧
    (b = 3#8 → ∀ base n, PopsTo s.cells base n → ∃ t, t.cells = base ∧
      t = { u with sp := t.sp, curOp := 0b0011#4, defN := n, pend := n } ∧
      (step s = if n = 0#8 then .next (defineCommit t) else .next t) ∧
      (n = 0#8 → (defineCommit t).pend = 0#8))

/-- 40_decoder_push_nop.md R101: an operand is pushed whole and counted, and the last one runs the dispatch: `push` has
nothing left to do, `define` commits. -/
def Obligations.OperandIsCollected : Prop :=
  ∀ (s : State) (b : Byte), s.pend ≠ 0#8 →
    ∃ t, t = { stackPush b s with pend := s.pend - 1#8 } ∧
      (s.pend ≠ 1#8 → feed b s = .next t) ∧
      (s.pend = 1#8 → s.curOp = 0b0001#4 → feed b s = .next t) ∧
      (s.pend = 1#8 → s.curOp = 0b0011#4 → feed b s = .next (defineCommit t))

/-- 40_decoder_push_nop.md R100, R101, R109: at top level, the steps that take the symbols of a well-formed instruction, one
symbol each, together do what `exec` says of the instruction. -/
def Obligations.InstructionAtTopLevel : Prop :=
  ∀ (i : Instr) (s : State) (rest : List Nibble), i.wellFormed = true → s.rst = false → s.depth = 0 → s.pend = 0#8 →
    s.input = encode i ++ rest → (∀ body, i = .define body → body.length = (stackPop s).1.toNat) →
    Host.Core.run Sys2Proof.core (encode i).length s = exec i { s with input := rest }

/-- 40_decoder_push_nop.md R100, R101, R109: inside a procedure, the steps that fetch the bytes of an instruction together do
what `exec` says of it, `pc` being past its last byte. -/
def Obligations.InstructionInProcedure : Prop :=
  ∀ (i : Instr) (s : State) (rest : List Byte), s.rst = false → 0 < s.depth → s.pend = 0#8 →
    decode (stackPop s).1.toNat (codeFrom s s.pc.val) = .instr i rest →
    ∃ p : Count, p.val = 256 - rest.length ∧
      Host.Core.run Sys2Proof.core (1 + (inlineOperands i).length) s = exec i { s with pc := p }

/-- 60_exceptions.md R200, R201: no instruction and no step stops the machine. -/
def Obligations.NothingStopsTheMachine : Prop :=
  (∀ (i : Instr) (s : State), ∃ t, exec i s = .next t) ∧ (∀ (s : State), ∃ t, step s = .next t)

/-! ### What every step keeps -/

/-- 10_state.md R34: the invariant holds after reset, for every positive `RS_DEPTH`. -/
def Obligations.ResetMeetsInvariant : Prop :=
  ∀ (d : Nat), 0 < d → Inv (State.resetWith d) ∧ SymbolInv (State.resetWith d) ∧ EventsBalanced (State.resetWith d)

/-- 10_state.md R34: every step keeps the invariant. -/
def Obligations.StepKeepsInvariant : Prop :=
  ∀ (s t : State), Inv s → step s = .next t → Inv t

/-- 10_state.md R34 item 9: as long as no push was dropped, code bytes are symbols. -/
def Obligations.StepKeepsCodeSymbols : Prop :=
  ∀ (s t : State), Inv s → SymbolInv s → step s = .next t → SymbolInv t

/-- 45_control_flow.md R178: begins minus ends is the depth, also after an abort. -/
def Obligations.StepKeepsEventsBalanced : Prop :=
  ∀ (s t : State), EventsBalanced s → step s = .next t → EventsBalanced t

/-- 20_memory.md R56: a fetch never returns a byte that has not been written. -/
def Obligations.FetchReadsWrittenByte : Prop :=
  ∀ (s : State), Inv s → 0 < s.depth → s.pc.val < 256 → ∃ b, s.code.read s.pc.val = some b ∧ csFetch s.pc.val s = b

/-- 10_state.md R34 items 2 and 3: `hp` never increases, and a written code byte never changes; R23, 20_memory.md R59: an
assigned slot stays assigned. -/
def Obligations.CodeIsWriteOnce : Prop :=
  ∀ (s t : State), s.rst = false → step s = .next t →
    t.hp.val ≤ s.hp.val ∧ (∀ a, s.hp.val ≤ a → t.code.read a = s.code.read a) ∧
    ∀ k (hk : k < 16), s.gt[k].valid = true → t.gt[k].valid = true

/-- 00_scope.md R6, 10_state.md R33: `RS_DEPTH` is configuration, so no instruction and no step, a reset included, changes it;
that it stands in the state, as the length of the list of frames, is the model's choice (log 6), and so is what a reset request
does with it (log 3). -/
def Obligations.ReturnStackKeepsItsSize : Prop :=
  (∀ (i : Instr) (s t : State), exec i s = .next t → t.rsDepth = s.rsDepth) ∧
  (∀ (s t : State), step s = .next t → t.rsDepth = s.rsDepth)

/-- 10_state.md R34 item 10: only a reset clears a fault bit. -/
def Obligations.FaultBitsAreSticky : Prop :=
  ∀ (s t : State) (b : FaultBit), s.rst = false → step s = .next t → s.hasFault b = true → t.hasFault b = true

/-- 10_state.md R28: no rule's effect on any other state depends on the fault register. -/
def Obligations.FaultRegisterIsUnobserved : Prop :=
  ∀ (s t : State) (f : BitVec 6), step s = .next t →
    ∃ f', step { s with fault := f } = .next { t with fault := f' }

/-- 10_state.md R34 item 7, 40_decoder_push_nop.md R109: the depth changes only with the decoder awaiting an opcode. -/
def Obligations.DepthChangesAtOpcodeBoundary : Prop :=
  ∀ (s t : State), step s = .next t → t.depth ≠ s.depth → t.pend = 0#8

/-- 40_decoder_push_nop.md R109: a step that takes an operand and not the last one emits nothing and changes, of the rest of
the state, only the stack, `pend` and STK_OVF. -/
def Obligations.CollectingChangesOnlyTheStack : Prop :=
  ∀ (s : State) (b : Byte), s.pend ≠ 0#8 → s.pend ≠ 1#8 → ∃ t, feed b s = .next t ∧
    t = { s with stack := t.stack, sp := t.sp, fault := t.fault, pend := s.pend - 1#8 } ∧
    ∀ c, c ≠ .stkOvf → t.hasFault c = s.hasFault c

/-- 00_scope.md R8: while a procedure executes, no input symbol is consumed and none has an effect. That a reset of a
busy core, too, leaves the symbols still to be delivered, is the model's choice (log 3). -/
def Obligations.InputIsIgnoredWhileBusy : Prop :=
  ∀ (s t : State) (symbols : List Nibble), s.busy = true → step s = .next t →
    t.input = s.input ∧ step { s with input := symbols } = .next { t with input := symbols }

/-- 00_scope.md R9, 43_output.md R142: events are only appended. -/
def Obligations.EventTraceGrows : Prop :=
  ∀ (s t : State), s.rst = false → step s = .next t → ∃ emitted, t.events = s.events ++ emitted

/-- 10_state.md R32: the contents it leaves unspecified are never read: two states that differ only there step to states that
differ only there. -/
def Obligations.UnspecifiedContentsAreUnobservable : Prop :=
  ∀ (s t s' t' : State), Inv s → Inv t → SameObservable s t → step s = .next s' → step t = .next t' →
    SameObservable s' t'

/-- 45_control_flow.md R181: whatever the state, the core comes back to top level after finitely many steps, taking no input
on the way. -/
def Obligations.ProcessingTerminates : Prop :=
  ∀ (s : State), s.rst = false → ∃ k t, Host.Core.run Sys2Proof.core k s = .next t ∧ t.depth = 0 ∧ t.input = s.input
end

