-- ==== Sys2Proof/Laws/State.lean ====
section
/-! SUPPORT. What each plain update of the state leaves and sets, one lemma a field, each by rfl. -/

namespace Sys2Proof.Machine

/-! ### `raise` -/

@[simp] theorem raise_stack (b : FaultBit) (s : State) : (raise b s).stack = s.stack := rfl
@[simp] theorem raise_sp (b : FaultBit) (s : State) : (raise b s).sp = s.sp := rfl
@[simp] theorem raise_code (b : FaultBit) (s : State) : (raise b s).code = s.code := rfl
@[simp] theorem raise_hp (b : FaultBit) (s : State) : (raise b s).hp = s.hp := rfl
@[simp] theorem raise_gt (b : FaultBit) (s : State) : (raise b s).gt = s.gt := rfl
@[simp] theorem raise_curOp (b : FaultBit) (s : State) : (raise b s).curOp = s.curOp := rfl
@[simp] theorem raise_pend (b : FaultBit) (s : State) : (raise b s).pend = s.pend := rfl
@[simp] theorem raise_defN (b : FaultBit) (s : State) : (raise b s).defN = s.defN := rfl
@[simp] theorem raise_pc (b : FaultBit) (s : State) : (raise b s).pc = s.pc := rfl
@[simp] theorem raise_rs (b : FaultBit) (s : State) : (raise b s).rs = s.rs := rfl
@[simp] theorem raise_depth (b : FaultBit) (s : State) : (raise b s).depth = s.depth := rfl
@[simp] theorem raise_input (b : FaultBit) (s : State) : (raise b s).input = s.input := rfl
@[simp] theorem raise_events (b : FaultBit) (s : State) : (raise b s).events = s.events := rfl
@[simp] theorem raise_rst (b : FaultBit) (s : State) : (raise b s).rst = s.rst := rfl
@[simp] theorem raise_fault (b : FaultBit) (s : State) : (raise b s).fault = s.fault ||| 1#6 <<< b.index := rfl

/-! ### `emit` -/

@[simp] theorem emit_stack (e : Event) (s : State) : (emit e s).stack = s.stack := rfl
@[simp] theorem emit_sp (e : Event) (s : State) : (emit e s).sp = s.sp := rfl
@[simp] theorem emit_code (e : Event) (s : State) : (emit e s).code = s.code := rfl
@[simp] theorem emit_hp (e : Event) (s : State) : (emit e s).hp = s.hp := rfl
@[simp] theorem emit_gt (e : Event) (s : State) : (emit e s).gt = s.gt := rfl
@[simp] theorem emit_curOp (e : Event) (s : State) : (emit e s).curOp = s.curOp := rfl
@[simp] theorem emit_pend (e : Event) (s : State) : (emit e s).pend = s.pend := rfl
@[simp] theorem emit_defN (e : Event) (s : State) : (emit e s).defN = s.defN := rfl
@[simp] theorem emit_pc (e : Event) (s : State) : (emit e s).pc = s.pc := rfl
@[simp] theorem emit_rs (e : Event) (s : State) : (emit e s).rs = s.rs := rfl
@[simp] theorem emit_depth (e : Event) (s : State) : (emit e s).depth = s.depth := rfl
@[simp] theorem emit_fault (e : Event) (s : State) : (emit e s).fault = s.fault := rfl
@[simp] theorem emit_input (e : Event) (s : State) : (emit e s).input = s.input := rfl
@[simp] theorem emit_rst (e : Event) (s : State) : (emit e s).rst = s.rst := rfl
@[simp] theorem emit_events (e : Event) (s : State) : (emit e s).events = s.events ++ [e] := rfl

/-! ### `acceptOpcode` -/

@[simp] theorem acceptOpcode_stack (op : Nibble) (s : State) : (acceptOpcode op s).stack = s.stack := rfl
@[simp] theorem acceptOpcode_sp (op : Nibble) (s : State) : (acceptOpcode op s).sp = s.sp := rfl
@[simp] theorem acceptOpcode_code (op : Nibble) (s : State) : (acceptOpcode op s).code = s.code := rfl
@[simp] theorem acceptOpcode_hp (op : Nibble) (s : State) : (acceptOpcode op s).hp = s.hp := rfl
@[simp] theorem acceptOpcode_gt (op : Nibble) (s : State) : (acceptOpcode op s).gt = s.gt := rfl
@[simp] theorem acceptOpcode_pend (op : Nibble) (s : State) : (acceptOpcode op s).pend = s.pend := rfl
@[simp] theorem acceptOpcode_defN (op : Nibble) (s : State) : (acceptOpcode op s).defN = s.defN := rfl
@[simp] theorem acceptOpcode_pc (op : Nibble) (s : State) : (acceptOpcode op s).pc = s.pc := rfl
@[simp] theorem acceptOpcode_rs (op : Nibble) (s : State) : (acceptOpcode op s).rs = s.rs := rfl
@[simp] theorem acceptOpcode_depth (op : Nibble) (s : State) : (acceptOpcode op s).depth = s.depth := rfl
@[simp] theorem acceptOpcode_fault (op : Nibble) (s : State) : (acceptOpcode op s).fault = s.fault := rfl
@[simp] theorem acceptOpcode_input (op : Nibble) (s : State) : (acceptOpcode op s).input = s.input := rfl
@[simp] theorem acceptOpcode_events (op : Nibble) (s : State) : (acceptOpcode op s).events = s.events := rfl
@[simp] theorem acceptOpcode_rst (op : Nibble) (s : State) : (acceptOpcode op s).rst = s.rst := rfl
@[simp] theorem acceptOpcode_curOp (op : Nibble) (s : State) : (acceptOpcode op s).curOp = op := rfl

/-! ### `openPush` -/

@[simp] theorem openPush_stack (s : State) : (openPush s).stack = s.stack := rfl
@[simp] theorem openPush_sp (s : State) : (openPush s).sp = s.sp := rfl
@[simp] theorem openPush_code (s : State) : (openPush s).code = s.code := rfl
@[simp] theorem openPush_hp (s : State) : (openPush s).hp = s.hp := rfl
@[simp] theorem openPush_gt (s : State) : (openPush s).gt = s.gt := rfl
@[simp] theorem openPush_defN (s : State) : (openPush s).defN = s.defN := rfl
@[simp] theorem openPush_pc (s : State) : (openPush s).pc = s.pc := rfl
@[simp] theorem openPush_rs (s : State) : (openPush s).rs = s.rs := rfl
@[simp] theorem openPush_depth (s : State) : (openPush s).depth = s.depth := rfl
@[simp] theorem openPush_fault (s : State) : (openPush s).fault = s.fault := rfl
@[simp] theorem openPush_input (s : State) : (openPush s).input = s.input := rfl
@[simp] theorem openPush_events (s : State) : (openPush s).events = s.events := rfl
@[simp] theorem openPush_rst (s : State) : (openPush s).rst = s.rst := rfl
@[simp] theorem openPush_curOp (s : State) : (openPush s).curOp = 0b0001#4 := rfl
@[simp] theorem openPush_pend (s : State) : (openPush s).pend = 1#8 := rfl

/-! ### `csWriteAll`, `gtWrite` -/

@[simp] theorem csWriteAll_stack (a : Nat) (bs : List Byte) (s : State) : (csWriteAll a bs s).stack = s.stack := rfl
@[simp] theorem csWriteAll_sp (a : Nat) (bs : List Byte) (s : State) : (csWriteAll a bs s).sp = s.sp := rfl
@[simp] theorem csWriteAll_hp (a : Nat) (bs : List Byte) (s : State) : (csWriteAll a bs s).hp = s.hp := rfl
@[simp] theorem csWriteAll_gt (a : Nat) (bs : List Byte) (s : State) : (csWriteAll a bs s).gt = s.gt := rfl
@[simp] theorem csWriteAll_curOp (a : Nat) (bs : List Byte) (s : State) : (csWriteAll a bs s).curOp = s.curOp := rfl
@[simp] theorem csWriteAll_pend (a : Nat) (bs : List Byte) (s : State) : (csWriteAll a bs s).pend = s.pend := rfl
@[simp] theorem csWriteAll_defN (a : Nat) (bs : List Byte) (s : State) : (csWriteAll a bs s).defN = s.defN := rfl
@[simp] theorem csWriteAll_pc (a : Nat) (bs : List Byte) (s : State) : (csWriteAll a bs s).pc = s.pc := rfl
@[simp] theorem csWriteAll_rs (a : Nat) (bs : List Byte) (s : State) : (csWriteAll a bs s).rs = s.rs := rfl
@[simp] theorem csWriteAll_depth (a : Nat) (bs : List Byte) (s : State) : (csWriteAll a bs s).depth = s.depth := rfl
@[simp] theorem csWriteAll_fault (a : Nat) (bs : List Byte) (s : State) : (csWriteAll a bs s).fault = s.fault := rfl
@[simp] theorem csWriteAll_input (a : Nat) (bs : List Byte) (s : State) : (csWriteAll a bs s).input = s.input := rfl
@[simp] theorem csWriteAll_events (a : Nat) (bs : List Byte) (s : State) : (csWriteAll a bs s).events = s.events := rfl
@[simp] theorem csWriteAll_rst (a : Nat) (bs : List Byte) (s : State) : (csWriteAll a bs s).rst = s.rst := rfl
@[simp] theorem csWriteAll_code (a : Nat) (bs : List Byte) (s : State) : (csWriteAll a bs s).code = s.code.writeAll a bs := rfl
@[simp] theorem gtWrite_stack (slot a : Byte) (s : State) : (gtWrite slot a s).stack = s.stack := rfl
@[simp] theorem gtWrite_sp (slot a : Byte) (s : State) : (gtWrite slot a s).sp = s.sp := rfl
@[simp] theorem gtWrite_code (slot a : Byte) (s : State) : (gtWrite slot a s).code = s.code := rfl
@[simp] theorem gtWrite_hp (slot a : Byte) (s : State) : (gtWrite slot a s).hp = s.hp := rfl
@[simp] theorem gtWrite_curOp (slot a : Byte) (s : State) : (gtWrite slot a s).curOp = s.curOp := rfl
@[simp] theorem gtWrite_pend (slot a : Byte) (s : State) : (gtWrite slot a s).pend = s.pend := rfl
@[simp] theorem gtWrite_defN (slot a : Byte) (s : State) : (gtWrite slot a s).defN = s.defN := rfl
@[simp] theorem gtWrite_pc (slot a : Byte) (s : State) : (gtWrite slot a s).pc = s.pc := rfl
@[simp] theorem gtWrite_rs (slot a : Byte) (s : State) : (gtWrite slot a s).rs = s.rs := rfl
@[simp] theorem gtWrite_depth (slot a : Byte) (s : State) : (gtWrite slot a s).depth = s.depth := rfl
@[simp] theorem gtWrite_fault (slot a : Byte) (s : State) : (gtWrite slot a s).fault = s.fault := rfl
@[simp] theorem gtWrite_input (slot a : Byte) (s : State) : (gtWrite slot a s).input = s.input := rfl
@[simp] theorem gtWrite_events (slot a : Byte) (s : State) : (gtWrite slot a s).events = s.events := rfl
@[simp] theorem gtWrite_rst (slot a : Byte) (s : State) : (gtWrite slot a s).rst = s.rst := rfl
@[simp] theorem gtWrite_gt (slot a : Byte) (s : State) :
    (gtWrite slot a s).gt = s.gt.setIfInBounds slot.toNat ⟨true, a⟩ := rfl

/-! ### `abort` -/

@[simp] theorem abort_stack (b : FaultBit) (s : State) : (abort b s).stack = s.stack := rfl
@[simp] theorem abort_sp (b : FaultBit) (s : State) : (abort b s).sp = s.sp := rfl
@[simp] theorem abort_code (b : FaultBit) (s : State) : (abort b s).code = s.code := rfl
@[simp] theorem abort_hp (b : FaultBit) (s : State) : (abort b s).hp = s.hp := rfl
@[simp] theorem abort_gt (b : FaultBit) (s : State) : (abort b s).gt = s.gt := rfl
@[simp] theorem abort_curOp (b : FaultBit) (s : State) : (abort b s).curOp = s.curOp := rfl
@[simp] theorem abort_defN (b : FaultBit) (s : State) : (abort b s).defN = s.defN := rfl
@[simp] theorem abort_pc (b : FaultBit) (s : State) : (abort b s).pc = s.pc := rfl
@[simp] theorem abort_rs (b : FaultBit) (s : State) : (abort b s).rs = s.rs := rfl
@[simp] theorem abort_input (b : FaultBit) (s : State) : (abort b s).input = s.input := rfl
@[simp] theorem abort_rst (b : FaultBit) (s : State) : (abort b s).rst = s.rst := rfl
@[simp] theorem abort_fault (b : FaultBit) (s : State) : (abort b s).fault = s.fault ||| 1#6 <<< b.index := rfl
@[simp] theorem abort_depth (b : FaultBit) (s : State) : (abort b s).depth = 0 := rfl
@[simp] theorem abort_pend (b : FaultBit) (s : State) : (abort b s).pend = 0#8 := rfl
@[simp] theorem abort_events (b : FaultBit) (s : State) :
    (abort b s).events = s.events ++ List.replicate s.depth .execEnd := rfl

/-! ### `pushFrame` -/

@[simp] theorem pushFrame_stack (tail : Bool) (a : Byte) (s : State) : (pushFrame tail a s).stack = s.stack := rfl
@[simp] theorem pushFrame_sp (tail : Bool) (a : Byte) (s : State) : (pushFrame tail a s).sp = s.sp := rfl
@[simp] theorem pushFrame_code (tail : Bool) (a : Byte) (s : State) : (pushFrame tail a s).code = s.code := rfl
@[simp] theorem pushFrame_hp (tail : Bool) (a : Byte) (s : State) : (pushFrame tail a s).hp = s.hp := rfl
@[simp] theorem pushFrame_gt (tail : Bool) (a : Byte) (s : State) : (pushFrame tail a s).gt = s.gt := rfl
@[simp] theorem pushFrame_curOp (tail : Bool) (a : Byte) (s : State) : (pushFrame tail a s).curOp = s.curOp := rfl
@[simp] theorem pushFrame_pend (tail : Bool) (a : Byte) (s : State) : (pushFrame tail a s).pend = s.pend := rfl
@[simp] theorem pushFrame_defN (tail : Bool) (a : Byte) (s : State) : (pushFrame tail a s).defN = s.defN := rfl
@[simp] theorem pushFrame_fault (tail : Bool) (a : Byte) (s : State) : (pushFrame tail a s).fault = s.fault := rfl
@[simp] theorem pushFrame_input (tail : Bool) (a : Byte) (s : State) : (pushFrame tail a s).input = s.input := rfl
@[simp] theorem pushFrame_rst (tail : Bool) (a : Byte) (s : State) : (pushFrame tail a s).rst = s.rst := rfl
@[simp] theorem pushFrame_depth (tail : Bool) (a : Byte) (s : State) : (pushFrame tail a s).depth = s.depth + 1 := rfl
@[simp] theorem pushFrame_pc (tail : Bool) (a : Byte) (s : State) : (pushFrame tail a s).pc = countOfByte a := rfl
@[simp] theorem pushFrame_events (tail : Bool) (a : Byte) (s : State) :
    (pushFrame tail a s).events = s.events ++ [.execBegin] := rfl
@[simp] theorem pushFrame_rs (tail : Bool) (a : Byte) (s : State) :
    (pushFrame tail a s).rs = s.rs.set s.depth ⟨s.pc, tail⟩ := rfl

end Sys2Proof.Machine
end

