-- ==== Sys2Proof/Laws/Frames.lean ====
section
/-! SUPPORT. Which fields each shared operation leaves unchanged, one lemma a field. -/

namespace Sys2Proof.Machine

/-! ### Operand-stack primitives -/

@[simp] theorem stackPush_code (b : Byte) (s : State) : (stackPush b s).code = s.code := by
  unfold stackPush; split <;> rfl
@[simp] theorem stackPush_hp (b : Byte) (s : State) : (stackPush b s).hp = s.hp := by
  unfold stackPush; split <;> rfl
@[simp] theorem stackPush_gt (b : Byte) (s : State) : (stackPush b s).gt = s.gt := by
  unfold stackPush; split <;> rfl
@[simp] theorem stackPush_curOp (b : Byte) (s : State) : (stackPush b s).curOp = s.curOp := by
  unfold stackPush; split <;> rfl
@[simp] theorem stackPush_pend (b : Byte) (s : State) : (stackPush b s).pend = s.pend := by
  unfold stackPush; split <;> rfl
@[simp] theorem stackPush_defN (b : Byte) (s : State) : (stackPush b s).defN = s.defN := by
  unfold stackPush; split <;> rfl
@[simp] theorem stackPush_pc (b : Byte) (s : State) : (stackPush b s).pc = s.pc := by
  unfold stackPush; split <;> rfl
@[simp] theorem stackPush_rs (b : Byte) (s : State) : (stackPush b s).rs = s.rs := by
  unfold stackPush; split <;> rfl
@[simp] theorem stackPush_depth (b : Byte) (s : State) : (stackPush b s).depth = s.depth := by
  unfold stackPush; split <;> rfl
@[simp] theorem stackPush_input (b : Byte) (s : State) : (stackPush b s).input = s.input := by
  unfold stackPush; split <;> rfl
@[simp] theorem stackPush_events (b : Byte) (s : State) : (stackPush b s).events = s.events := by
  unfold stackPush; split <;> rfl
@[simp] theorem stackPush_rst (b : Byte) (s : State) : (stackPush b s).rst = s.rst := by
  unfold stackPush; split <;> rfl
@[simp] theorem stackPop_stack (s : State) : ((stackPop s).2).stack = s.stack := by
  unfold stackPop; split <;> rfl
@[simp] theorem stackPop_code (s : State) : ((stackPop s).2).code = s.code := by
  unfold stackPop; split <;> rfl
@[simp] theorem stackPop_hp (s : State) : ((stackPop s).2).hp = s.hp := by
  unfold stackPop; split <;> rfl
@[simp] theorem stackPop_gt (s : State) : ((stackPop s).2).gt = s.gt := by
  unfold stackPop; split <;> rfl
@[simp] theorem stackPop_curOp (s : State) : ((stackPop s).2).curOp = s.curOp := by
  unfold stackPop; split <;> rfl
@[simp] theorem stackPop_pend (s : State) : ((stackPop s).2).pend = s.pend := by
  unfold stackPop; split <;> rfl
@[simp] theorem stackPop_defN (s : State) : ((stackPop s).2).defN = s.defN := by
  unfold stackPop; split <;> rfl
@[simp] theorem stackPop_pc (s : State) : ((stackPop s).2).pc = s.pc := by
  unfold stackPop; split <;> rfl
@[simp] theorem stackPop_rs (s : State) : ((stackPop s).2).rs = s.rs := by
  unfold stackPop; split <;> rfl
@[simp] theorem stackPop_depth (s : State) : ((stackPop s).2).depth = s.depth := by
  unfold stackPop; split <;> rfl
@[simp] theorem stackPop_fault (s : State) : ((stackPop s).2).fault = s.fault := by
  unfold stackPop; split <;> rfl
@[simp] theorem stackPop_input (s : State) : ((stackPop s).2).input = s.input := by
  unfold stackPop; split <;> rfl
@[simp] theorem stackPop_events (s : State) : ((stackPop s).2).events = s.events := by
  unfold stackPop; split <;> rfl
@[simp] theorem stackPop_rst (s : State) : ((stackPop s).2).rst = s.rst := by
  unfold stackPop; split <;> rfl
@[simp] theorem stackRemoveAt_code (off : Byte) (s : State) : (stackRemoveAt off s).code = s.code := by
  unfold stackRemoveAt; split <;> rfl
@[simp] theorem stackRemoveAt_hp (off : Byte) (s : State) : (stackRemoveAt off s).hp = s.hp := by
  unfold stackRemoveAt; split <;> rfl
@[simp] theorem stackRemoveAt_gt (off : Byte) (s : State) : (stackRemoveAt off s).gt = s.gt := by
  unfold stackRemoveAt; split <;> rfl
@[simp] theorem stackRemoveAt_curOp (off : Byte) (s : State) : (stackRemoveAt off s).curOp = s.curOp := by
  unfold stackRemoveAt; split <;> rfl
@[simp] theorem stackRemoveAt_pend (off : Byte) (s : State) : (stackRemoveAt off s).pend = s.pend := by
  unfold stackRemoveAt; split <;> rfl
@[simp] theorem stackRemoveAt_defN (off : Byte) (s : State) : (stackRemoveAt off s).defN = s.defN := by
  unfold stackRemoveAt; split <;> rfl
@[simp] theorem stackRemoveAt_pc (off : Byte) (s : State) : (stackRemoveAt off s).pc = s.pc := by
  unfold stackRemoveAt; split <;> rfl
@[simp] theorem stackRemoveAt_rs (off : Byte) (s : State) : (stackRemoveAt off s).rs = s.rs := by
  unfold stackRemoveAt; split <;> rfl
@[simp] theorem stackRemoveAt_depth (off : Byte) (s : State) : (stackRemoveAt off s).depth = s.depth := by
  unfold stackRemoveAt; split <;> rfl
@[simp] theorem stackRemoveAt_fault (off : Byte) (s : State) : (stackRemoveAt off s).fault = s.fault := by
  unfold stackRemoveAt; split <;> rfl
@[simp] theorem stackRemoveAt_input (off : Byte) (s : State) : (stackRemoveAt off s).input = s.input := by
  unfold stackRemoveAt; split <;> rfl
@[simp] theorem stackRemoveAt_events (off : Byte) (s : State) : (stackRemoveAt off s).events = s.events := by
  unfold stackRemoveAt; split <;> rfl
@[simp] theorem stackRemoveAt_rst (off : Byte) (s : State) : (stackRemoveAt off s).rst = s.rst := by
  unfold stackRemoveAt; split <;> rfl

/-! ### Operand forms -/

@[simp] theorem openDefine_stack (s : State) : (openDefine s).stack = s.stack := by
  simp [openDefine]
@[simp] theorem openDefine_code (s : State) : (openDefine s).code = s.code := by
  simp [openDefine]
@[simp] theorem openDefine_hp (s : State) : (openDefine s).hp = s.hp := by
  simp [openDefine]
@[simp] theorem openDefine_gt (s : State) : (openDefine s).gt = s.gt := by
  simp [openDefine]
@[simp] theorem openDefine_pc (s : State) : (openDefine s).pc = s.pc := by
  simp [openDefine]
@[simp] theorem openDefine_rs (s : State) : (openDefine s).rs = s.rs := by
  simp [openDefine]
@[simp] theorem openDefine_depth (s : State) : (openDefine s).depth = s.depth := by
  simp [openDefine]
@[simp] theorem openDefine_fault (s : State) : (openDefine s).fault = s.fault := by
  simp [openDefine]
@[simp] theorem openDefine_input (s : State) : (openDefine s).input = s.input := by
  simp [openDefine]
@[simp] theorem openDefine_events (s : State) : (openDefine s).events = s.events := by
  simp [openDefine]
@[simp] theorem openDefine_rst (s : State) : (openDefine s).rst = s.rst := by
  simp [openDefine]
@[simp] theorem openDefine_curOp (s : State) : (openDefine s).curOp = 0b0011#4 := by
  simp [openDefine]
@[simp] theorem collectOperand_code (b : Byte) (s : State) : (collectOperand b s).code = s.code := by
  simp [collectOperand]
@[simp] theorem collectOperand_hp (b : Byte) (s : State) : (collectOperand b s).hp = s.hp := by
  simp [collectOperand]
@[simp] theorem collectOperand_gt (b : Byte) (s : State) : (collectOperand b s).gt = s.gt := by
  simp [collectOperand]
@[simp] theorem collectOperand_curOp (b : Byte) (s : State) : (collectOperand b s).curOp = s.curOp := by
  simp [collectOperand]
@[simp] theorem collectOperand_defN (b : Byte) (s : State) : (collectOperand b s).defN = s.defN := by
  simp [collectOperand]
@[simp] theorem collectOperand_pc (b : Byte) (s : State) : (collectOperand b s).pc = s.pc := by
  simp [collectOperand]
@[simp] theorem collectOperand_rs (b : Byte) (s : State) : (collectOperand b s).rs = s.rs := by
  simp [collectOperand]
@[simp] theorem collectOperand_depth (b : Byte) (s : State) : (collectOperand b s).depth = s.depth := by
  simp [collectOperand]
@[simp] theorem collectOperand_input (b : Byte) (s : State) : (collectOperand b s).input = s.input := by
  simp [collectOperand]
@[simp] theorem collectOperand_events (b : Byte) (s : State) : (collectOperand b s).events = s.events := by
  simp [collectOperand]
@[simp] theorem collectOperand_rst (b : Byte) (s : State) : (collectOperand b s).rst = s.rst := by
  simp [collectOperand]
@[simp] theorem collectOperand_pend (b : Byte) (s : State) : (collectOperand b s).pend = s.pend - 1#8 := by
  simp [collectOperand]
@[simp] theorem popTwo_stack (s : State) : ((popTwo s).2.2).stack = s.stack := by
  simp [popTwo]
@[simp] theorem popTwo_code (s : State) : ((popTwo s).2.2).code = s.code := by
  simp [popTwo]
@[simp] theorem popTwo_hp (s : State) : ((popTwo s).2.2).hp = s.hp := by
  simp [popTwo]
@[simp] theorem popTwo_gt (s : State) : ((popTwo s).2.2).gt = s.gt := by
  simp [popTwo]
@[simp] theorem popTwo_curOp (s : State) : ((popTwo s).2.2).curOp = s.curOp := by
  simp [popTwo]
@[simp] theorem popTwo_pend (s : State) : ((popTwo s).2.2).pend = s.pend := by
  simp [popTwo]
@[simp] theorem popTwo_defN (s : State) : ((popTwo s).2.2).defN = s.defN := by
  simp [popTwo]
@[simp] theorem popTwo_pc (s : State) : ((popTwo s).2.2).pc = s.pc := by
  simp [popTwo]
@[simp] theorem popTwo_rs (s : State) : ((popTwo s).2.2).rs = s.rs := by
  simp [popTwo]
@[simp] theorem popTwo_depth (s : State) : ((popTwo s).2.2).depth = s.depth := by
  simp [popTwo]
@[simp] theorem popTwo_fault (s : State) : ((popTwo s).2.2).fault = s.fault := by
  simp [popTwo]
@[simp] theorem popTwo_input (s : State) : ((popTwo s).2.2).input = s.input := by
  simp [popTwo]
@[simp] theorem popTwo_events (s : State) : ((popTwo s).2.2).events = s.events := by
  simp [popTwo]
@[simp] theorem popTwo_rst (s : State) : ((popTwo s).2.2).rst = s.rst := by
  simp [popTwo]

/-! ### The pops of a `define` -/

@[simp] theorem popBody_stack (n : Nat) (acc : List Byte) (s : State) : (popBody n acc s).2.stack = s.stack := by
  induction n generalizing acc s with
  | zero => rfl
  | succ n ih => simp [popBody, ih]
@[simp] theorem popBody_code (n : Nat) (acc : List Byte) (s : State) : (popBody n acc s).2.code = s.code := by
  induction n generalizing acc s with
  | zero => rfl
  | succ n ih => simp [popBody, ih]
@[simp] theorem popBody_hp (n : Nat) (acc : List Byte) (s : State) : (popBody n acc s).2.hp = s.hp := by
  induction n generalizing acc s with
  | zero => rfl
  | succ n ih => simp [popBody, ih]
@[simp] theorem popBody_gt (n : Nat) (acc : List Byte) (s : State) : (popBody n acc s).2.gt = s.gt := by
  induction n generalizing acc s with
  | zero => rfl
  | succ n ih => simp [popBody, ih]
@[simp] theorem popBody_curOp (n : Nat) (acc : List Byte) (s : State) : (popBody n acc s).2.curOp = s.curOp := by
  induction n generalizing acc s with
  | zero => rfl
  | succ n ih => simp [popBody, ih]
@[simp] theorem popBody_pend (n : Nat) (acc : List Byte) (s : State) : (popBody n acc s).2.pend = s.pend := by
  induction n generalizing acc s with
  | zero => rfl
  | succ n ih => simp [popBody, ih]
@[simp] theorem popBody_defN (n : Nat) (acc : List Byte) (s : State) : (popBody n acc s).2.defN = s.defN := by
  induction n generalizing acc s with
  | zero => rfl
  | succ n ih => simp [popBody, ih]
@[simp] theorem popBody_pc (n : Nat) (acc : List Byte) (s : State) : (popBody n acc s).2.pc = s.pc := by
  induction n generalizing acc s with
  | zero => rfl
  | succ n ih => simp [popBody, ih]
@[simp] theorem popBody_rs (n : Nat) (acc : List Byte) (s : State) : (popBody n acc s).2.rs = s.rs := by
  induction n generalizing acc s with
  | zero => rfl
  | succ n ih => simp [popBody, ih]
@[simp] theorem popBody_depth (n : Nat) (acc : List Byte) (s : State) : (popBody n acc s).2.depth = s.depth := by
  induction n generalizing acc s with
  | zero => rfl
  | succ n ih => simp [popBody, ih]
@[simp] theorem popBody_fault (n : Nat) (acc : List Byte) (s : State) : (popBody n acc s).2.fault = s.fault := by
  induction n generalizing acc s with
  | zero => rfl
  | succ n ih => simp [popBody, ih]
@[simp] theorem popBody_input (n : Nat) (acc : List Byte) (s : State) : (popBody n acc s).2.input = s.input := by
  induction n generalizing acc s with
  | zero => rfl
  | succ n ih => simp [popBody, ih]
@[simp] theorem popBody_events (n : Nat) (acc : List Byte) (s : State) : (popBody n acc s).2.events = s.events := by
  induction n generalizing acc s with
  | zero => rfl
  | succ n ih => simp [popBody, ih]
@[simp] theorem popBody_rst (n : Nat) (acc : List Byte) (s : State) : (popBody n acc s).2.rst = s.rst := by
  induction n generalizing acc s with
  | zero => rfl
  | succ n ih => simp [popBody, ih]

/-! ### The global table -/

@[simp] theorem gtLookup_stack (slot : Byte) (s : State) : ((gtLookup slot s).2).stack = s.stack := by
  unfold gtLookup; split
  · split <;> rfl
  · rfl
@[simp] theorem gtLookup_sp (slot : Byte) (s : State) : ((gtLookup slot s).2).sp = s.sp := by
  unfold gtLookup; split
  · split <;> rfl
  · rfl
@[simp] theorem gtLookup_code (slot : Byte) (s : State) : ((gtLookup slot s).2).code = s.code := by
  unfold gtLookup; split
  · split <;> rfl
  · rfl
@[simp] theorem gtLookup_hp (slot : Byte) (s : State) : ((gtLookup slot s).2).hp = s.hp := by
  unfold gtLookup; split
  · split <;> rfl
  · rfl
@[simp] theorem gtLookup_gt (slot : Byte) (s : State) : ((gtLookup slot s).2).gt = s.gt := by
  unfold gtLookup; split
  · split <;> rfl
  · rfl
@[simp] theorem gtLookup_curOp (slot : Byte) (s : State) : ((gtLookup slot s).2).curOp = s.curOp := by
  unfold gtLookup; split
  · split <;> rfl
  · rfl
@[simp] theorem gtLookup_pend (slot : Byte) (s : State) : ((gtLookup slot s).2).pend = s.pend := by
  unfold gtLookup; split
  · split <;> rfl
  · rfl
@[simp] theorem gtLookup_defN (slot : Byte) (s : State) : ((gtLookup slot s).2).defN = s.defN := by
  unfold gtLookup; split
  · split <;> rfl
  · rfl
@[simp] theorem gtLookup_pc (slot : Byte) (s : State) : ((gtLookup slot s).2).pc = s.pc := by
  unfold gtLookup; split
  · split <;> rfl
  · rfl
@[simp] theorem gtLookup_rs (slot : Byte) (s : State) : ((gtLookup slot s).2).rs = s.rs := by
  unfold gtLookup; split
  · split <;> rfl
  · rfl
@[simp] theorem gtLookup_depth (slot : Byte) (s : State) : ((gtLookup slot s).2).depth = s.depth := by
  unfold gtLookup; split
  · split <;> rfl
  · rfl
@[simp] theorem gtLookup_input (slot : Byte) (s : State) : ((gtLookup slot s).2).input = s.input := by
  unfold gtLookup; split
  · split <;> rfl
  · rfl
@[simp] theorem gtLookup_events (slot : Byte) (s : State) : ((gtLookup slot s).2).events = s.events := by
  unfold gtLookup; split
  · split <;> rfl
  · rfl
@[simp] theorem gtLookup_rst (slot : Byte) (s : State) : ((gtLookup slot s).2).rst = s.rst := by
  unfold gtLookup; split
  · split <;> rfl
  · rfl

/-! ### `Terminate` and `Enter` -/

@[simp] theorem unwind_stack (d : Nat) (s : State) : (unwind d s).stack = s.stack := by
  induction d generalizing s with
  | zero => rfl
  | succ d ih => unfold unwind; split <;> simp [ih]
@[simp] theorem unwind_sp (d : Nat) (s : State) : (unwind d s).sp = s.sp := by
  induction d generalizing s with
  | zero => rfl
  | succ d ih => unfold unwind; split <;> simp [ih]
@[simp] theorem unwind_code (d : Nat) (s : State) : (unwind d s).code = s.code := by
  induction d generalizing s with
  | zero => rfl
  | succ d ih => unfold unwind; split <;> simp [ih]
@[simp] theorem unwind_hp (d : Nat) (s : State) : (unwind d s).hp = s.hp := by
  induction d generalizing s with
  | zero => rfl
  | succ d ih => unfold unwind; split <;> simp [ih]
@[simp] theorem unwind_gt (d : Nat) (s : State) : (unwind d s).gt = s.gt := by
  induction d generalizing s with
  | zero => rfl
  | succ d ih => unfold unwind; split <;> simp [ih]
@[simp] theorem unwind_curOp (d : Nat) (s : State) : (unwind d s).curOp = s.curOp := by
  induction d generalizing s with
  | zero => rfl
  | succ d ih => unfold unwind; split <;> simp [ih]
@[simp] theorem unwind_pend (d : Nat) (s : State) : (unwind d s).pend = s.pend := by
  induction d generalizing s with
  | zero => rfl
  | succ d ih => unfold unwind; split <;> simp [ih]
@[simp] theorem unwind_defN (d : Nat) (s : State) : (unwind d s).defN = s.defN := by
  induction d generalizing s with
  | zero => rfl
  | succ d ih => unfold unwind; split <;> simp [ih]
@[simp] theorem unwind_rs (d : Nat) (s : State) : (unwind d s).rs = s.rs := by
  induction d generalizing s with
  | zero => rfl
  | succ d ih => unfold unwind; split <;> simp [ih]
@[simp] theorem unwind_fault (d : Nat) (s : State) : (unwind d s).fault = s.fault := by
  induction d generalizing s with
  | zero => rfl
  | succ d ih => unfold unwind; split <;> simp [ih]
@[simp] theorem unwind_input (d : Nat) (s : State) : (unwind d s).input = s.input := by
  induction d generalizing s with
  | zero => rfl
  | succ d ih => unfold unwind; split <;> simp [ih]
@[simp] theorem unwind_rst (d : Nat) (s : State) : (unwind d s).rst = s.rst := by
  induction d generalizing s with
  | zero => rfl
  | succ d ih => unfold unwind; split <;> simp [ih]
@[simp] theorem terminate_stack (s : State) : (terminate s).stack = s.stack := by
  simp [terminate]
@[simp] theorem terminate_sp (s : State) : (terminate s).sp = s.sp := by
  simp [terminate]
@[simp] theorem terminate_code (s : State) : (terminate s).code = s.code := by
  simp [terminate]
@[simp] theorem terminate_hp (s : State) : (terminate s).hp = s.hp := by
  simp [terminate]
@[simp] theorem terminate_gt (s : State) : (terminate s).gt = s.gt := by
  simp [terminate]
@[simp] theorem terminate_curOp (s : State) : (terminate s).curOp = s.curOp := by
  simp [terminate]
@[simp] theorem terminate_pend (s : State) : (terminate s).pend = s.pend := by
  simp [terminate]
@[simp] theorem terminate_defN (s : State) : (terminate s).defN = s.defN := by
  simp [terminate]
@[simp] theorem terminate_rs (s : State) : (terminate s).rs = s.rs := by
  simp [terminate]
@[simp] theorem terminate_fault (s : State) : (terminate s).fault = s.fault := by
  simp [terminate]
@[simp] theorem terminate_input (s : State) : (terminate s).input = s.input := by
  simp [terminate]
@[simp] theorem terminate_rst (s : State) : (terminate s).rst = s.rst := by
  simp [terminate]

/-- `Enter`, case by case: what the lookup answers decides everything (R171, R177). -/
theorem enter_cases (slot : Byte) (tail : Bool) (s : State) :
    ((gtLookup slot s).1 = none ∧ tail = true ∧ enter slot tail s = terminate (gtLookup slot s).2) ∨
    ((gtLookup slot s).1 = none ∧ tail = false ∧ enter slot tail s = (gtLookup slot s).2) ∨
    (∃ addr, (gtLookup slot s).1 = some addr ∧ s.rsDepth ≤ s.depth ∧
      enter slot tail s = abort .rsOvf (gtLookup slot s).2) ∨
    (∃ addr, (gtLookup slot s).1 = some addr ∧ s.depth < s.rsDepth ∧
      enter slot tail s = pushFrame tail addr (gtLookup slot s).2) := by
  have hrs : (gtLookup slot s).2.rsDepth = s.rsDepth := by simp [State.rsDepth]
  have hd : (gtLookup slot s).2.depth = s.depth := by simp
  unfold enter
  rcases h : gtLookup slot s with ⟨_ | addr, s'⟩ <;> rw [h] at hrs hd
  · cases tail <;> simp
  · by_cases hfull : s'.rsDepth ≤ s'.depth
    · exact .inr (.inr (.inl ⟨addr, rfl, by rw [← hrs, ← hd]; exact hfull, by simp [hfull]⟩))
    · exact .inr (.inr (.inr ⟨addr, rfl, by simp only [← hrs, ← hd]; omega, by simp [hfull]⟩))

@[simp] theorem enter_stack (slot : Byte) (tail : Bool) (s : State) : (enter slot tail s).stack = s.stack := by
  rcases enter_cases slot tail s with ⟨-, -, h⟩ | ⟨-, -, h⟩ | ⟨_, -, -, h⟩ | ⟨_, -, -, h⟩ <;> simp [h]
@[simp] theorem enter_sp (slot : Byte) (tail : Bool) (s : State) : (enter slot tail s).sp = s.sp := by
  rcases enter_cases slot tail s with ⟨-, -, h⟩ | ⟨-, -, h⟩ | ⟨_, -, -, h⟩ | ⟨_, -, -, h⟩ <;> simp [h]
@[simp] theorem enter_code (slot : Byte) (tail : Bool) (s : State) : (enter slot tail s).code = s.code := by
  rcases enter_cases slot tail s with ⟨-, -, h⟩ | ⟨-, -, h⟩ | ⟨_, -, -, h⟩ | ⟨_, -, -, h⟩ <;> simp [h]
@[simp] theorem enter_hp (slot : Byte) (tail : Bool) (s : State) : (enter slot tail s).hp = s.hp := by
  rcases enter_cases slot tail s with ⟨-, -, h⟩ | ⟨-, -, h⟩ | ⟨_, -, -, h⟩ | ⟨_, -, -, h⟩ <;> simp [h]
@[simp] theorem enter_gt (slot : Byte) (tail : Bool) (s : State) : (enter slot tail s).gt = s.gt := by
  rcases enter_cases slot tail s with ⟨-, -, h⟩ | ⟨-, -, h⟩ | ⟨_, -, -, h⟩ | ⟨_, -, -, h⟩ <;> simp [h]
@[simp] theorem enter_curOp (slot : Byte) (tail : Bool) (s : State) : (enter slot tail s).curOp = s.curOp := by
  rcases enter_cases slot tail s with ⟨-, -, h⟩ | ⟨-, -, h⟩ | ⟨_, -, -, h⟩ | ⟨_, -, -, h⟩ <;> simp [h]
@[simp] theorem enter_defN (slot : Byte) (tail : Bool) (s : State) : (enter slot tail s).defN = s.defN := by
  rcases enter_cases slot tail s with ⟨-, -, h⟩ | ⟨-, -, h⟩ | ⟨_, -, -, h⟩ | ⟨_, -, -, h⟩ <;> simp [h]
@[simp] theorem enter_input (slot : Byte) (tail : Bool) (s : State) : (enter slot tail s).input = s.input := by
  rcases enter_cases slot tail s with ⟨-, -, h⟩ | ⟨-, -, h⟩ | ⟨_, -, -, h⟩ | ⟨_, -, -, h⟩ <;> simp [h]
@[simp] theorem enter_rst (slot : Byte) (tail : Bool) (s : State) : (enter slot tail s).rst = s.rst := by
  rcases enter_cases slot tail s with ⟨-, -, h⟩ | ⟨-, -, h⟩ | ⟨_, -, -, h⟩ | ⟨_, -, -, h⟩ <;> simp [h]

/-! ### The commit of a `define` -/

@[simp] theorem commitChecked_stack (slot : Byte) (body : List Byte) (s : State) : (commitChecked slot body s).stack = s.stack := by
  unfold commitChecked; split <;> split <;> simp [storeProcedure]
@[simp] theorem commitChecked_sp (slot : Byte) (body : List Byte) (s : State) : (commitChecked slot body s).sp = s.sp := by
  unfold commitChecked; split <;> split <;> simp [storeProcedure]
@[simp] theorem commitChecked_curOp (slot : Byte) (body : List Byte) (s : State) : (commitChecked slot body s).curOp = s.curOp := by
  unfold commitChecked; split <;> split <;> simp [storeProcedure]
@[simp] theorem commitChecked_pend (slot : Byte) (body : List Byte) (s : State) : (commitChecked slot body s).pend = s.pend := by
  unfold commitChecked; split <;> split <;> simp [storeProcedure]
@[simp] theorem commitChecked_defN (slot : Byte) (body : List Byte) (s : State) : (commitChecked slot body s).defN = s.defN := by
  unfold commitChecked; split <;> split <;> simp [storeProcedure]
@[simp] theorem commitChecked_pc (slot : Byte) (body : List Byte) (s : State) : (commitChecked slot body s).pc = s.pc := by
  unfold commitChecked; split <;> split <;> simp [storeProcedure]
@[simp] theorem commitChecked_rs (slot : Byte) (body : List Byte) (s : State) : (commitChecked slot body s).rs = s.rs := by
  unfold commitChecked; split <;> split <;> simp [storeProcedure]
@[simp] theorem commitChecked_depth (slot : Byte) (body : List Byte) (s : State) : (commitChecked slot body s).depth = s.depth := by
  unfold commitChecked; split <;> split <;> simp [storeProcedure]
@[simp] theorem commitChecked_input (slot : Byte) (body : List Byte) (s : State) : (commitChecked slot body s).input = s.input := by
  unfold commitChecked; split <;> split <;> simp [storeProcedure]
@[simp] theorem commitChecked_events (slot : Byte) (body : List Byte) (s : State) : (commitChecked slot body s).events = s.events := by
  unfold commitChecked; split <;> split <;> simp [storeProcedure]
@[simp] theorem commitChecked_rst (slot : Byte) (body : List Byte) (s : State) : (commitChecked slot body s).rst = s.rst := by
  unfold commitChecked; split <;> split <;> simp [storeProcedure]
@[simp] theorem defineCommit_stack (s : State) : (defineCommit s).stack = s.stack := by
  simp [defineCommit]
@[simp] theorem defineCommit_curOp (s : State) : (defineCommit s).curOp = s.curOp := by
  simp [defineCommit]
@[simp] theorem defineCommit_pend (s : State) : (defineCommit s).pend = s.pend := by
  simp [defineCommit]
@[simp] theorem defineCommit_defN (s : State) : (defineCommit s).defN = s.defN := by
  simp [defineCommit]
@[simp] theorem defineCommit_pc (s : State) : (defineCommit s).pc = s.pc := by
  simp [defineCommit]
@[simp] theorem defineCommit_rs (s : State) : (defineCommit s).rs = s.rs := by
  simp [defineCommit]
@[simp] theorem defineCommit_depth (s : State) : (defineCommit s).depth = s.depth := by
  simp [defineCommit]
@[simp] theorem defineCommit_input (s : State) : (defineCommit s).input = s.input := by
  simp [defineCommit]
@[simp] theorem defineCommit_events (s : State) : (defineCommit s).events = s.events := by
  simp [defineCommit]
@[simp] theorem defineCommit_rst (s : State) : (defineCommit s).rst = s.rst := by
  simp [defineCommit]
@[simp] theorem collectBody_curOp (body : List Byte) (s : State) : (collectBody body s).curOp = s.curOp := by
  induction body generalizing s with
  | nil => rfl
  | cons b body ih => simp only [collectBody]; split <;> simp [ih]
@[simp] theorem collectBody_defN (body : List Byte) (s : State) : (collectBody body s).defN = s.defN := by
  induction body generalizing s with
  | nil => rfl
  | cons b body ih => simp only [collectBody]; split <;> simp [ih]
@[simp] theorem collectBody_pc (body : List Byte) (s : State) : (collectBody body s).pc = s.pc := by
  induction body generalizing s with
  | nil => rfl
  | cons b body ih => simp only [collectBody]; split <;> simp [ih]
@[simp] theorem collectBody_rs (body : List Byte) (s : State) : (collectBody body s).rs = s.rs := by
  induction body generalizing s with
  | nil => rfl
  | cons b body ih => simp only [collectBody]; split <;> simp [ih]
@[simp] theorem collectBody_depth (body : List Byte) (s : State) : (collectBody body s).depth = s.depth := by
  induction body generalizing s with
  | nil => rfl
  | cons b body ih => simp only [collectBody]; split <;> simp [ih]
@[simp] theorem collectBody_input (body : List Byte) (s : State) : (collectBody body s).input = s.input := by
  induction body generalizing s with
  | nil => rfl
  | cons b body ih => simp only [collectBody]; split <;> simp [ih]
@[simp] theorem collectBody_events (body : List Byte) (s : State) : (collectBody body s).events = s.events := by
  induction body generalizing s with
  | nil => rfl
  | cons b body ih => simp only [collectBody]; split <;> simp [ih]
@[simp] theorem collectBody_rst (body : List Byte) (s : State) : (collectBody body s).rst = s.rst := by
  induction body generalizing s with
  | nil => rfl
  | cons b body ih => simp only [collectBody]; split <;> simp [ih]

end Sys2Proof.Machine
end

