-- ==== Sys2Proof/Laws/Memory.lean ====
section
/-! SUPPORT. Reading after writing, and the canonical form, for the byte memories. -/

namespace Sys2Proof.Machine

@[simp] theorem Memory.read_nil (a : Nat) : Memory.read [] a = none := rfl

/-- A read after a write: the byte written at its address, what stood there before at every other. -/
theorem Memory.read_write (m : Memory) (a b : Nat) (v : Byte) :
    (m.write a v).read b = if b = a then some v else m.read b := by
  induction m with
  | nil => rfl
  | cons c m ih =>
    obtain ⟨k, w⟩ := c
    simp only [Memory.write]
    split
    · rfl
    · split
      · subst k; simp only [Memory.read]; split <;> rfl
      · simp only [Memory.read, ih]
        split <;> rename_i hb
        · rw [if_neg (by omega)]
        · rfl

@[simp] theorem Memory.read_write_same (m : Memory) (a : Nat) (v : Byte) : (m.write a v).read a = some v := by
  simp [Memory.read_write]

theorem Memory.read_write_other (m : Memory) {a b : Nat} (v : Byte) (h : b ≠ a) :
    (m.write a v).read b = m.read b := by
  simp [Memory.read_write, h]

theorem Memory.mem_write {m : Memory} {a : Nat} {v : Byte} {c : Host.Cell} (h : c ∈ m.write a v) :
    c = (a, v) ∨ c ∈ m := by
  induction m with
  | nil => simpa [Memory.write] using h
  | cons d m ih =>
    obtain ⟨k, w⟩ := d
    simp only [Memory.write] at h
    split at h
    · simpa using h
    · split at h
      · rcases List.mem_cons.mp h with h | h <;> simp [h]
      · rcases List.mem_cons.mp h with h | h
        · simp [h]
        · rcases ih h with h | h <;> simp [h]

/-- A write inside the address space keeps the canonical form. -/
theorem Memory.wf_write {m : Memory} {a : Nat} (v : Byte) (hm : m.wf) (ha : a < 256) : (m.write a v).wf := by
  refine ⟨?_, fun c hc => ?_⟩
  · obtain ⟨hs, -⟩ := hm
    induction m with
    | nil => simp [Memory.write]
    | cons d m ih =>
      obtain ⟨k, w⟩ := d
      obtain ⟨hk, hm⟩ := List.pairwise_cons.mp hs
      simp only [Memory.write]
      split
      · rename_i hak
        refine List.pairwise_cons.mpr ⟨fun c hc => ?_, List.pairwise_cons.mpr ⟨hk, hm⟩⟩
        rcases List.mem_cons.mp hc with rfl | hc
        · exact hak
        · exact Nat.lt_trans hak (hk c hc)
      · split
        · rename_i hak; subst hak; exact List.pairwise_cons.mpr ⟨hk, hm⟩
        · refine List.pairwise_cons.mpr ⟨fun c hc => ?_, ih hm⟩
          rcases Memory.mem_write hc with rfl | hc
          · simp only; omega
          · exact hk c hc
  · rcases Memory.mem_write hc with rfl | hc
    · exact ha
    · exact hm.2 c hc

/-- What a block of bytes written at ascending addresses leaves to read. -/
theorem Memory.read_writeAll (m : Memory) (a b : Nat) (vs : List Byte) :
    (m.writeAll a vs).read b = if a ≤ b ∧ b < a + vs.length then vs[b - a]? else m.read b := by
  induction vs generalizing m a with
  | nil => simp [Memory.writeAll]
  | cons v vs ih =>
    simp only [Memory.writeAll, ih, Memory.read_write, List.length_cons]
    by_cases h1 : a + 1 ≤ b ∧ b < a + 1 + vs.length
    · rw [if_pos h1, if_pos (by omega), show b - a = (b - (a + 1)) + 1 by omega, List.getElem?_cons_succ]
    · rw [if_neg h1]
      by_cases h2 : b = a
      · subst b; simp
      · rw [if_neg h2, if_neg (by omega)]

theorem Memory.wf_writeAll {m : Memory} {a : Nat} (vs : List Byte) (hm : m.wf) (ha : a + vs.length ≤ 256) :
    (m.writeAll a vs).wf := by
  induction vs generalizing m a with
  | nil => exact hm
  | cons v vs ih =>
    simp only [List.length_cons] at ha
    exact ih (Memory.wf_write v hm (by omega)) (by omega)

/-! ### The compaction loop -/

theorem stackRead_write (m : Memory) (a b : Nat) (v : Byte) :
    stackRead (m.write a v) b = if b = a then v else stackRead m b := by
  simp only [stackRead, Memory.read_write]; split <;> rfl

/-- The compaction loop moves each cell above the index down by one and touches nothing else. -/
theorem read_moveDown (n i : Nat) (m : Memory) (b : Nat) :
    (moveDown n i m).read b = if i ≤ b ∧ b < i + n then some (stackRead m (b + 1)) else m.read b := by
  induction n generalizing i m with
  | zero => simp [moveDown]
  | succ n ih =>
    simp only [moveDown, ih, stackRead_write, Memory.read_write]
    by_cases h1 : i + 1 ≤ b ∧ b < i + 1 + n
    · have h2 : i ≤ b ∧ b < i + (n + 1) := by omega
      have h3 : b + 1 ≠ i := by omega
      simp [h1, h2, h3]
    · rw [if_neg h1]
      by_cases h2 : b = i
      · subst b; simp
      · rw [if_neg h2, if_neg (by omega)]

theorem wf_moveDown (n i : Nat) {m : Memory} (hm : m.wf) (hi : i + n ≤ 256) : (moveDown n i m).wf := by
  induction n generalizing i m with
  | zero => exact hm
  | succ n ih => exact ih (i + 1) (Memory.wf_write _ hm (by omega)) (by omega)

end Sys2Proof.Machine
end

