-- ==== Sys2Proof/Laws/Control.lean ====
section
/-! SUPPORT. The fault bits, entering and leaving procedures, and the stored image of a procedure. -/

namespace Sys2Proof.Machine

open Sys2Proof

/-! ### The fault register -/

theorem raise_hasFault (b c : FaultBit) (s : State) : (raise b s).hasFault c = (s.hasFault c || decide (b = c)) := by
  have : (1#6 <<< b.index).getLsbD c.index = decide (b = c) := by cases b <;> cases c <;> decide
  simp only [State.hasFault, raise_fault, BitVec.getLsbD_or, this]

/-- A push sets no bit but STK_OVF. -/
theorem stackPush_hasFault (b : Byte) (s : State) (c : FaultBit) (hc : c ≠ .stkOvf) :
    (stackPush b s).hasFault c = s.hasFault c := by
  unfold stackPush; split
  · rw [raise_hasFault]; simp [Ne.symm hc]
  · rfl

/-! ### The return stack -/

/-- What reads after one frame was written. -/
theorem frame_of_set {s t : State} {d : Nat} {f : Frame} (h : t.rs = s.rs.set d f) (hd : d < s.rs.length) :
    t.frame d = f ∧ ∀ k, k ≠ d → t.frame k = s.frame k := by
  constructor
  · simp [State.frame, h, List.getD_eq_getElem?_getD, hd]
  · intro k hk
    simp [State.frame, h, List.getD_eq_getElem?_getD, Ne.symm hk]

theorem rsDepth_congr {s t : State} (h : t.rs = s.rs) : t.rsDepth = s.rsDepth := by simp [State.rsDepth, h]

@[simp] theorem pushFrame_rsDepth (tail : Bool) (addr : Byte) (s : State) :
    (pushFrame tail addr s).rsDepth = s.rsDepth := by simp [State.rsDepth]

/-- A reset keeps the parameter. -/
@[simp] theorem assertRst_rsDepth (s : State) : (assertRst s).rsDepth = s.rsDepth := by
  simp [assertRst, State.resetWith, State.rsDepth]

theorem enter_of_room {slot : Byte} {s : State} (tail : Bool) (h : slot.toNat < 16)
    (hv : s.gt[slot.toNat].valid = true) (hd : s.depth < s.rsDepth) :
    enter slot tail s = pushFrame tail s.gt[slot.toNat].addr s := by
  simp [enter, gtLookup, h, hv, Nat.not_le.mpr hd]

theorem enter_of_full {slot : Byte} {s : State} (tail : Bool) (h : slot.toNat < 16)
    (hv : s.gt[slot.toNat].valid = true) (hd : ¬ s.depth < s.rsDepth) : enter slot tail s = abort .rsOvf s := by
  simp [enter, gtLookup, h, hv, Nat.not_lt.mp hd]

theorem enter_of_badSlot {slot : Byte} (s : State) (tail : Bool) (h : 16 ≤ slot.toNat) :
    enter slot tail s = if tail then terminate (raise .badSlot s) else raise .badSlot s := by
  simp [enter, gtLookup, Nat.not_lt.mpr h]

theorem enter_of_undefSlot {slot : Byte} {s : State} (tail : Bool) (h : slot.toNat < 16)
    (hv : s.gt[slot.toNat].valid = false) :
    enter slot tail s = if tail then terminate (raise .undefSlot s) else raise .undefSlot s := by
  simp [enter, gtLookup, h, hv]

/-- Tail frames on top of the return stack are popped one after another, with one `ExecEnd` each. -/
theorem unwind_tails (d n : Nat) (s : State) (hd : s.depth = d + n)
    (h : ∀ k, d ≤ k → k < d + n → (s.frame k).tail = true) :
    unwind (d + n) s = unwind d { s with depth := d, events := s.events ++ List.replicate n .execEnd } := by
  induction n generalizing s with
  | zero => simp only [Nat.add_zero] at hd ⊢; subst hd; simp
  | succ n ih =>
    rw [← Nat.add_assoc]
    simp only [unwind]
    rw [if_pos (h (d + n) (by omega) (by omega))]
    rw [ih (emit .execEnd { s with depth := d + n }) rfl (fun k h1 h2 => h k h1 (by omega))]
    simp [emit, List.replicate_succ]

/-- Where an unwinding stops: at top level, or in the caller that the last popped frame names. -/
theorem unwind_stops (d : Nat) (s : State) :
    (d = 0 ∧ unwind d s = s) ∨
    (d ≠ 0 ∧ (unwind d s).depth < d ∧
      ((unwind d s).depth = 0 ∨ (unwind d s).pc = (s.frame (unwind d s).depth).retPc)) := by
  induction d generalizing s with
  | zero => exact .inl ⟨rfl, rfl⟩
  | succ d ih =>
    right
    refine ⟨by omega, ?_⟩
    unfold unwind
    split
    · rcases ih (emit .execEnd { s with depth := d }) with ⟨h1, h2⟩ | ⟨-, h2, h3⟩
      · subst h1; rw [h2]; simp
      · exact ⟨by omega, h3⟩
    · simp

/-- An unwinding emits one `ExecEnd` for each frame it pops. -/
theorem unwind_events (d : Nat) (s : State) : ∃ k, k ≤ d ∧
    (unwind d s).events = s.events ++ List.replicate k .execEnd ∧ ((unwind d s).depth + k = d ∨ d = 0) := by
  induction d generalizing s with
  | zero => exact ⟨0, le_refl _, by simp [unwind], .inr rfl⟩
  | succ d ih =>
    unfold unwind
    split
    · obtain ⟨k, h1, h2, h3⟩ := ih (emit .execEnd { s with depth := d })
      refine ⟨k + 1, by omega, ?_, .inl ?_⟩
      · rw [h2]; simp [List.replicate_succ]
      · rcases h3 with h3 | h3
        · omega
        · subst h3; have : k = 0 := by omega
          subst this; simp [unwind]
    · exact ⟨1, by omega, by simp, .inl (by simp)⟩

theorem terminate_events (s : State) : ∃ k,
    (terminate s).events = s.events ++ List.replicate k .execEnd ∧ (terminate s).depth + k = s.depth := by
  obtain ⟨k, h1, h2, h3⟩ := unwind_events s.depth s
  refine ⟨k, h2, ?_⟩
  rcases h3 with h3 | h3
  · exact h3
  · simp [terminate, h3, unwind]; omega

/-! ### The code store -/

/-- Every byte after a procedure was stored. -/
theorem storeProcedure_read {body : List Byte} {s : State} (slot : Byte) (h : body.length + 1 ≤ s.hp.val) :
    (storeProcedure slot body s).hp.val = s.hp.val - (body.length + 1) ∧
    ∀ a, (storeProcedure slot body s).code.read a =
      if s.hp.val - (body.length + 1) ≤ a ∧ a < s.hp.val then (body ++ [4#8])[a - (s.hp.val - (body.length + 1))]?
      else s.code.read a := by
  have hc : (storeProcedure slot body s).code = s.code.writeAll (s.hp.val - (body.length + 1)) (body ++ [4#8]) := by
    simp [storeProcedure, countBack, Config.retMarker]
  refine ⟨by simp [storeProcedure, countBack], fun a => ?_⟩
  rw [hc, Memory.read_writeAll]
  simp only [List.length_append, List.length_cons, List.length_nil, Nat.zero_add]
  rw [show s.hp.val - (body.length + 1) + (body.length + 1) = s.hp.val by omega]

theorem storeProcedure_wf {body : List Byte} {s : State} (slot : Byte) (h : body.length + 1 ≤ s.hp.val)
    (hw : Memory.wf s.code) : Memory.wf (storeProcedure slot body s).code := by
  have hc : (storeProcedure slot body s).code = s.code.writeAll (s.hp.val - (body.length + 1)) (body ++ [4#8]) := by
    simp [storeProcedure, countBack, Config.retMarker]
  have := s.hp.isLt
  rw [hc]; exact Memory.wf_writeAll _ hw (by simp; omega)

/-- The memories right after reset are in canonical form. -/
theorem reset_wf : Memory.wf State.reset.stack ∧ Memory.wf State.reset.code := by
  simp [State.reset, State.resetWith, Memory.wf]

theorem storeProcedure_gt (slot : Byte) (body : List Byte) (s : State) :
    (storeProcedure slot body s).gt =
      s.gt.setIfInBounds slot.toNat ⟨true, BitVec.ofNat 8 (s.hp.val - (body.length + 1))⟩ := by
  simp [storeProcedure, countBack]

/-- The slot's entry holds the entry address, and every other entry is as before. -/
theorem storeProcedure_entry (slot : Byte) (body : List Byte) (s : State) (k : Nat) (hk : k < 16) :
    (storeProcedure slot body s).gt[k] =
      if k = slot.toNat then ⟨true, BitVec.ofNat 8 (storeProcedure slot body s).hp.val⟩ else s.gt[k] := by
  have e : (storeProcedure slot body s).hp.val = s.hp.val - (body.length + 1) := by simp [storeProcedure, countBack]
  simp only [storeProcedure_gt, e]
  split
  · rename_i h; subst h; simp
  · rename_i h; rw [Vector.getElem_setIfInBounds_ne]; omega

end Sys2Proof.Machine
end

