-- ==== Sys2Proof/Laws/Exec.lean ====
section
/-! SUPPORT. The equation of each instruction's meaning over the shared operations, so that no proof unfolds `exec`. -/

namespace Sys2Proof.Machine

@[simp] theorem exec_noop (s : State) : exec .noop s = .next (acceptOpcode 0b0000#4 s) := rfl
@[simp] theorem exec_rsv12 (s : State) : exec .rsv12 s = .next (acceptOpcode 0b1100#4 s) := rfl
@[simp] theorem exec_rsv13 (s : State) : exec .rsv13 s = .next (acceptOpcode 0b1101#4 s) := rfl
@[simp] theorem exec_rsv14 (s : State) : exec .rsv14 s = .next (acceptOpcode 0b1110#4 s) := rfl
@[simp] theorem exec_page2 (s : State) : exec .page2 s = .next (acceptOpcode 0b1111#4 s) := rfl

@[simp] theorem exec_push (imm : Byte) (s : State) : exec (.push imm) s = .next (collectOperand imm (openPush s)) := rfl

@[simp] theorem exec_add (s : State) : exec .add s = .next (stackPush
    ((popTwo (acceptOpcode 0b0010#4 s)).1 + (popTwo (acceptOpcode 0b0010#4 s)).2.1)
    (popTwo (acceptOpcode 0b0010#4 s)).2.2) := rfl

@[simp] theorem exec_sub (s : State) : exec .sub s = .next (stackPush
    ((popTwo (acceptOpcode 0b1010#4 s)).2.1 - (popTwo (acceptOpcode 0b1010#4 s)).1)
    (popTwo (acceptOpcode 0b1010#4 s)).2.2) := rfl

@[simp] theorem exec_del (s : State) : exec .del s = .next (stackRemoveAt
    (stackPop (acceptOpcode 0b1000#4 s)).1 (stackPop (acceptOpcode 0b1000#4 s)).2) := rfl

@[simp] theorem exec_copy (s : State) : exec .copy s = .next (stackPush
    (stackPeek (stackPop (acceptOpcode 0b1001#4 s)).1 (stackPop (acceptOpcode 0b1001#4 s)).2)
    (stackPop (acceptOpcode 0b1001#4 s)).2) := rfl

@[simp] theorem exec_stackcount (s : State) : exec .stackcount s = .next
    (emit (.display (BitVec.ofNat 8 (min s.sp.val Config.countClamp))) (acceptOpcode 0b0110#4 s)) := rfl

@[simp] theorem exec_showTop (s : State) : exec .showTop s = .next
    (emit (.display (stackPeek 0#8 s)) (acceptOpcode 0b0111#4 s)) := rfl

@[simp] theorem exec_define (body : List Byte) (s : State) : exec (.define body) s = .next
    (if (openDefine s).pend = 0#8 then defineCommit (openDefine s) else collectBody body (openDefine s)) := rfl

@[simp] theorem exec_ret (s : State) : exec .ret s = .next (terminate (acceptOpcode 0b0100#4 s)) := rfl

@[simp] theorem exec_call (s : State) : exec .call s = .next (enter
    (stackPop (acceptOpcode 0b0101#4 s)).1 false (stackPop (acceptOpcode 0b0101#4 s)).2) := rfl

@[simp] theorem exec_jnz (s : State) : exec .jnz s = .next
    (if (popTwo (acceptOpcode 0b1011#4 s)).2.1 = 0#8 then (popTwo (acceptOpcode 0b1011#4 s)).2.2
     else enter (popTwo (acceptOpcode 0b1011#4 s)).1 true (popTwo (acceptOpcode 0b1011#4 s)).2.2) := rfl

/-! What each instruction leaves unchanged whatever its operands: the input stream, the reset request, and the shape of the
return stack. -/

theorem exec_next (i : Instr) (s : State) : ∃ t, exec i s = .next t ∧ t.input = s.input ∧ t.rst = s.rst := by
  cases i <;> simp
  case define body => split <;> simp
  case jnz => split <;> simp

end Sys2Proof.Machine
end

