-- ==== Sys2Proof/Laws/PerInstr.lean ====
section
/-! SUPPORT. What is said of every instruction as syntax, constructor by constructor (family `OpcodeMap`): the opcode map of
30_encoding.md R85 reads the opcode of the instruction as the instruction's own format (R81), and the number of symbols of the
encoding is the one the format has (R91). -/

namespace Sys2Proof.Laws.OpcodeMap

open Sys2Proof

/-- The format R81 gives an instruction. -/
def expectedFormat (i : Instr) : Format :=
  match i with
  | .push _ => .p
  | .define _ => .d
  | .noop | .add | .ret | .call | .stackcount | .showTop | .del | .copy | .sub | .jnz
  | .rsv12 | .rsv13 | .rsv14 | .page2 => .z i

/-- The opcode map gives the instruction's format, and the encoding has as many symbols as the decoder will take. -/
def Statement (i : Instr) : Prop :=
  formatOf (opcodeOf i) = expectedFormat i ∧
    (encode i).length = 1 + inlineCount (opcodeOf i) (inlineOperands i).length

theorem noop : Statement .noop := by constructor <;> decide
theorem push (imm : Byte) : Statement (.push imm) := ⟨rfl, rfl⟩
theorem add : Statement .add := by constructor <;> decide
theorem define (body : List Byte) : Statement (.define body) := by
  refine ⟨rfl, ?_⟩
  have : formatOf (opcodeOf (.define body)) = .d := rfl
  simp [encode, inlineCount, this, inlineOperands, Nat.add_comm]
theorem ret : Statement .ret := by constructor <;> decide
theorem call : Statement .call := by constructor <;> decide
theorem stackcount : Statement .stackcount := by constructor <;> decide
theorem showTop : Statement .showTop := by constructor <;> decide
theorem del : Statement .del := by constructor <;> decide
theorem copy : Statement .copy := by constructor <;> decide
theorem sub : Statement .sub := by constructor <;> decide
theorem jnz : Statement .jnz := by constructor <;> decide
theorem rsv12 : Statement .rsv12 := by constructor <;> decide
theorem rsv13 : Statement .rsv13 := by constructor <;> decide
theorem rsv14 : Statement .rsv14 := by constructor <;> decide
theorem page2 : Statement .page2 := by constructor <;> decide

end Sys2Proof.Laws.OpcodeMap
end

