-- ==== Sys2Proof/Laws/Stack.lean ====
section
/-! SUPPORT. The operand stack seen as the list of its cells in use: what the primitives answer and leave, and what the pops of
an instruction do after `cur_op` is written. -/

namespace Sys2Proof.Machine

open Sys2Proof

theorem countUp_val (c : Count) (h : c.val < 256) : (countUp c).val = c.val + 1 := by simp [countUp, h]

theorem countDown_val (c : Count) : (countDown c).val = c.val - 1 := rfl

theorem cells_length (s : State) : s.cells.length = s.sp.val := by simp [State.cells]

theorem cells_eq_nil (s : State) : s.cells = [] ↔ s.sp.val = 0 := by
  rw [← List.length_eq_zero_iff, cells_length]

/-- The cells depend on the stack memory and the count alone. -/
theorem cells_congr {s t : State} (h1 : s.stack = t.stack) (h2 : s.sp = t.sp) : s.cells = t.cells := by
  have : s.cell = t.cell := by funext i; simp [State.cell, h1]
  simp [State.cells, h2, this]

theorem cells_getElem? (s : State) (i : Nat) : s.cells[i]? = if i < s.sp.val then some (s.cell i) else none := by
  simp only [State.cells, List.getElem?_map]
  split
  · rw [List.getElem?_range (by assumption)]; rfl
  · rw [List.getElem?_eq_none (by simp; omega)]; rfl

/-- The top cell stands after the others. -/
theorem cells_top {s u : State} (h : s.sp.val ≠ 0) (hu : u.stack = s.stack) (hsp : u.sp.val = s.sp.val - 1) :
    s.cells = u.cells ++ [s.cell (s.sp.val - 1)] := by
  obtain ⟨n, hn⟩ : ∃ n, s.sp.val = n + 1 := ⟨s.sp.val - 1, by omega⟩
  have : u.cell = s.cell := by funext i; simp [State.cell, hu]
  simp only [State.cells, hsp, hn, this, Nat.add_sub_cancel, List.range_succ, List.map_append, List.map_cons, List.map_nil]

/-- A pop moves the count only. -/
theorem stackPop_eq (s : State) : (stackPop s).2 = { s with sp := (stackPop s).2.sp } := by
  unfold stackPop; split <;> rfl

theorem stackPop_sp_val (s : State) : (stackPop s).2.sp.val = s.sp.val - 1 := by
  unfold stackPop; split
  · rename_i h; simp [h]
  · exact countDown_val _

/-- What a pop answers and leaves, said of the cells. -/
theorem stackPop_popsTo (s : State) : PopsTo s.cells (stackPop s).2.cells (stackPop s).1 := by
  by_cases h : s.sp.val = 0
  · right
    have hc := (cells_eq_nil s).2 h
    simp [stackPop, h, hc]
  · left
    have := cells_top (u := { s with sp := countDown s.sp }) h rfl (countDown_val _)
    simpa [stackPop, h] using this

theorem popsTo_unique {c base base' : List Byte} {b b' : Byte} (h : PopsTo c base b) (h' : PopsTo c base' b') :
    base = base' ∧ b = b' := by
  rcases h with h | ⟨h1, h2, h3⟩ <;> rcases h' with h' | ⟨h1', h2', h3'⟩
  · subst h; simpa using List.append_inj' h' rfl
  · subst h; simp at h1'
  · subst h'; simp at h1
  · simp_all

theorem stackPop_of_popsTo {s : State} {base : List Byte} {b : Byte} (h : PopsTo s.cells base b) :
    (stackPop s).2.cells = base ∧ (stackPop s).1 = b := popsTo_unique (stackPop_popsTo s) h

/-- A push touches the cell at the count only. -/
theorem stackPush_read (b : Byte) (s : State) (j : Nat) (hj : j ≠ s.sp.val) :
    (stackPush b s).stack.read j = s.stack.read j := by
  unfold stackPush; split
  · rfl
  · exact Memory.read_write_other _ _ hj

theorem stackPush_fault_of_room (b : Byte) (s : State) (h : s.sp.val < 256) : (stackPush b s).fault = s.fault := by
  simp [stackPush, Config.stackCap, show ¬ s.sp.val = 256 by omega]

theorem stackPush_sp_le (b : Byte) (s : State) : s.sp.val ≤ (stackPush b s).sp.val := by
  unfold stackPush; split
  · exact le_refl _
  · rename_i h; simp only [Config.stackCap] at h
    have := s.sp.isLt; rw [countUp_val _ (by omega)]; omega

theorem stackPush_wf (b : Byte) {s : State} (h : Memory.wf s.stack) : Memory.wf (stackPush b s).stack := by
  unfold stackPush; split
  · exact h
  · rename_i hne; simp only [Config.stackCap] at hne
    have := s.sp.isLt
    exact Memory.wf_write _ h (by omega)

theorem stackRemoveAt_wf (off : Byte) {s : State} (h : Memory.wf s.stack) : Memory.wf (stackRemoveAt off s).stack := by
  unfold stackRemoveAt; split
  · exact h
  · have := s.sp.isLt
    have : removeIndex off s ≤ s.sp.val - 1 := by unfold removeIndex; omega
    exact wf_moveDown _ _ h (by omega)

theorem acceptOpcode_cells (op : Nibble) (s : State) : (acceptOpcode op s).cells = s.cells := cells_congr rfl rfl

/-- The first pop of an instruction. -/
theorem stackPop_accept {s : State} {base : List Byte} {b : Byte} (op : Nibble) (h : PopsTo s.cells base b) :
    ∃ u, stackPop (acceptOpcode op s) = (b, u) ∧ u = { s with sp := u.sp, curOp := op } ∧ u.cells = base := by
  rw [← acceptOpcode_cells op] at h
  obtain ⟨h1, h2⟩ := stackPop_of_popsTo h
  refine ⟨_, Prod.ext h2 rfl, ?_, h1⟩
  apply State.ext <;> simp

/-- The two pops of an instruction. -/
theorem popTwo_accept {s : State} {mid base : List Byte} {a b : Byte} (op : Nibble) (h : PopsTo s.cells mid a)
    (h' : PopsTo mid base b) :
    ∃ u, popTwo (acceptOpcode op s) = (a, b, u) ∧ u = { s with sp := u.sp, curOp := op } ∧ u.cells = base := by
  obtain ⟨v, h1, h2, h3⟩ := stackPop_accept op h
  rw [← h3] at h'
  obtain ⟨h4, h5⟩ := stackPop_of_popsTo h'
  refine ⟨(stackPop v).2, ?_, ?_, h4⟩
  · simp only [popTwo, h1, h5]
  · rw [stackPop_eq v, h2]

/-- Popping a body takes the top cells, in their order. -/
theorem popBody_cells (n : Nat) (acc : List Byte) (s : State) (base l : List Byte) (h : s.cells = base ++ l)
    (hl : l.length = n) : (popBody n acc s).1 = l ++ acc ∧ (popBody n acc s).2.cells = base := by
  induction n generalizing acc s l with
  | zero =>
    have : l = [] := List.eq_nil_of_length_eq_zero hl
    subst this; simp [popBody]; simpa using h
  | succ n ih =>
    obtain ⟨l', x, rfl⟩ : ∃ l' x, l = l' ++ [x] :=
      ⟨l.dropLast, l.getLast (by intro e; simp [e] at hl), (List.dropLast_append_getLast _).symm⟩
    rw [← List.append_assoc] at h
    obtain ⟨h1, h2⟩ := stackPop_of_popsTo (s := s) (.inl h)
    have := ih (x :: acc) (stackPop s).2 l' (by rw [h1]) (by simpa using hl)
    simp only [popBody, h2]
    simpa using this

/-- The opcode of `define`: the size is popped and latched. -/
theorem openDefine_of_popsTo {s : State} {mid : List Byte} {size : Byte} (h : PopsTo s.cells mid size) :
    ∃ u, openDefine s = u ∧ u.cells = mid ∧
      u = { s with sp := u.sp, curOp := 0b0011#4, defN := size, pend := size } := by
  obtain ⟨u, h1, h2, h3⟩ := stackPop_accept 0b0011#4 h
  refine ⟨_, rfl, ?_, ?_⟩
  · rw [← h3]; simp only [openDefine, h1]; exact cells_congr rfl rfl
  · simp only [openDefine, h1]; rw [h2]

/-! ### The body of a `define` -/

theorem cellsPushed_cons (cells : List Byte) (b : Byte) (values : List Byte) :
    cellsPushed (cellsPushed cells [b]) values = cellsPushed cells (b :: values) := by
  simp only [cellsPushed, Config.stackCap, List.take_append, List.length_take, List.length_cons,
    List.length_nil, List.append_assoc]
  rcases Nat.lt_or_ge cells.length 256 with h | h
  · simp [List.take_of_length_le (show cells.length ≤ 256 by omega), Nat.min_eq_right (show cells.length ≤ 256 by omega),
      show min (256 - cells.length) 1 = 1 by omega, List.take_cons (show 0 < 256 - cells.length by omega)]
  · simp [show 256 - cells.length = 0 by omega, Nat.min_eq_left h]

/-- A push adds one cell, or none to a full stack. -/
theorem stackPush_cells (b : Byte) (s : State) : (stackPush b s).cells = cellsPushed s.cells [b] := by
  have hl := cells_length s
  have := s.sp.isLt
  by_cases h : s.sp.val = 256
  · have : (stackPush b s).cells = s.cells := cells_congr (by simp [stackPush, Config.stackCap, h])
      (by simp [stackPush, Config.stackCap, h])
    rw [this, cellsPushed, Config.stackCap, List.take_append, List.take_of_length_le (by omega), hl, h]; simp
  · have hsp : (stackPush b s).sp.val = s.sp.val + 1 := by
      simp [stackPush, Config.stackCap, h, countUp_val _ (show s.sp.val < 256 by omega)]
    rw [cellsPushed, Config.stackCap, List.take_of_length_le (by simp; omega)]
    apply List.ext_getElem?
    intro i
    rw [cells_getElem?, hsp]
    have hc : ∀ i, (stackPush b s).cell i = if i = s.sp.val then b else s.cell i := by
      intro i; simp only [State.cell, stackRead]
      split
      · rename_i hi; subst hi; simp [stackPush, Config.stackCap, h]
      · rename_i hi; rw [stackPush_read b s i hi]
    rcases Nat.lt_trichotomy i s.sp.val with hi | hi | hi
    · rw [List.getElem?_append_left (by omega), cells_getElem?, if_pos hi, if_pos (by omega), hc, if_neg (by omega)]
    · subst hi; rw [List.getElem?_append_right (by omega), hl, hc]; simp
    · rw [List.getElem?_append_right (by omega), if_neg (by omega), List.getElem?_eq_none (by simp; omega)]

theorem collectOperand_cells (b : Byte) (s : State) : (collectOperand b s).cells = cellsPushed s.cells [b] := by
  rw [← stackPush_cells]; exact cells_congr rfl rfl

/-- An awaited operand is pushed and counted, and nothing else changes but STK_OVF. -/
theorem collectOperand_eq (b : Byte) (s : State) :
    collectOperand b s = { s with
      stack := (stackPush b s).stack, sp := (stackPush b s).sp, pend := s.pend - 1#8
      fault := if s.sp.val < 256 then s.fault else (raise .stkOvf s).fault } := by
  have := s.sp.isLt
  by_cases h : s.sp.val = 256
  · simp [collectOperand, stackPush, Config.stackCap, h, raise]
  · simp [collectOperand, stackPush, Config.stackCap, h, show s.sp.val < 256 by omega]

/-- As many values as are awaited: they are pushed, less those the stack has no room for, and the body is committed; what
follows them is ignored. -/
theorem collectBody_commits (body : List Byte) (s : State) (h0 : s.pend ≠ 0#8) (hp : s.pend.toNat ≤ body.length) :
    ∃ v, collectBody body s = defineCommit v ∧ v.cells = cellsPushed s.cells (body.take s.pend.toNat) ∧
      v = { s with stack := v.stack, sp := v.sp, fault := v.fault, pend := 0#8 } ∧
      v.fault = (if s.sp.val + s.pend.toNat ≤ 256 then s.fault else (raise .stkOvf s).fault) ∧
      ∀ j, j < s.sp.val ∨ s.sp.val + s.pend.toNat ≤ j → v.stack.read j = s.stack.read j := by
  induction body generalizing s with
  | nil => exact absurd (BitVec.eq_of_toNat_eq (by simpa using hp)) h0
  | cons b body ih =>
    have hpos : s.pend.toNat ≠ 0 := fun e => h0 (BitVec.eq_of_toNat_eq (by simpa using e))
    have hpend : (collectOperand b s).pend.toNat = s.pend.toNat - 1 := by
      rw [collectOperand_pend, BitVec.toNat_sub]; simp; have := s.pend.isLt; omega
    have hsp : (collectOperand b s).sp.val = min (s.sp.val + 1) 256 := by
      rw [← cells_length, collectOperand_cells, cellsPushed, List.length_take]; simp [cells_length, Config.stackCap]; omega
    have hle := s.sp.isLt
    have hread : ∀ j, j ≠ s.sp.val → (collectOperand b s).stack.read j = s.stack.read j := stackPush_read b s
    have hfault : (collectOperand b s).fault = if s.sp.val < 256 then s.fault else (raise .stkOvf s).fault := by
      rw [collectOperand_eq]
    simp only [List.length_cons] at hp
    simp only [collectBody]
    by_cases hz : (collectOperand b s).pend = 0#8
    · have h1 : s.pend.toNat = 1 := by rw [hz] at hpend; simp at hpend; omega
      rw [if_pos hz, h1]
      refine ⟨_, rfl, by simp [collectOperand_cells], ?_, ?_, fun j hj => hread j (by omega)⟩
      · rw [collectOperand_pend] at hz; apply State.ext <;> simp [hz]
      · rw [hfault]; split <;> split <;> first | rfl | omega
    · obtain ⟨v, h1, h2, h3, h4, h5⟩ := ih (collectOperand b s) hz (by omega)
      rw [if_neg hz]
      obtain ⟨n, hn⟩ : ∃ n, s.pend.toNat = n + 1 := ⟨s.pend.toNat - 1, by omega⟩
      refine ⟨v, h1, ?_, ?_, ?_, fun j hj => ?_⟩
      · rw [h2, hpend, hn, collectOperand_cells, cellsPushed_cons]; simp
      · rw [collectOperand_eq] at h3; exact h3
      · rw [h4, hsp, hpend, raise_fault, raise_fault, hfault]
        split <;> split <;> split <;> first | rfl | omega | (simp [BitVec.or_assoc])
      · rw [hsp, hpend] at h5
        by_cases hj' : j = s.sp.val
        · omega
        · rw [h5 j (by omega), hread j hj']

/-- Fewer values than are awaited: nothing is committed. -/
theorem collectBody_waits (body : List Byte) (s : State) (hp : body.length < s.pend.toNat) :
    (collectBody body s).hp = s.hp ∧ (collectBody body s).code = s.code ∧ (collectBody body s).gt = s.gt := by
  induction body generalizing s with
  | nil => exact ⟨rfl, rfl, rfl⟩
  | cons b body ih =>
    simp only [List.length_cons] at hp
    have hpend : (collectOperand b s).pend.toNat = s.pend.toNat - 1 := by
      rw [collectOperand_pend, BitVec.toNat_sub]; simp; have := s.pend.isLt; omega
    have hz : (collectOperand b s).pend ≠ 0#8 := by intro e; rw [e] at hpend; simp at hpend; omega
    simp only [collectBody, if_neg hz]
    simpa using ih (collectOperand b s) (by omega)

end Sys2Proof.Machine
end

