-- ==== Sys2Proof/Laws/Step.lean ====
section
/-! SUPPORT. Everything a step can do, said once. A property that every primitive of the block has, and that survives putting
primitives one after another, every instruction and every step have (`Closed`); the same for a relation between two machines
(`Agrees`). A property of all steps is then a check of the primitives. -/

namespace Sys2Proof.Machine

open Sys2Proof

theorem next_unique {s t : State} {o : Host.Outcome State Fault Refusal} (h1 : o = .next s) (h2 : o = .next t) : s = t := by
  rw [h1] at h2; exact Host.Outcome.next.inj h2

/-! ### Running -/

theorem run_next (k : Nat) {s t : State} (h : step s = .next t) :
    Host.Core.run Sys2Proof.core (k + 1) s = Host.Core.run Sys2Proof.core k t := by
  have h' : Sys2Proof.core.step s = .next t := h
  simp only [Host.Core.run]; rw [h']

theorem run_one {s t : State} (h : step s = .next t) : Host.Core.run Sys2Proof.core 1 s = .next t := by
  rw [run_next 0 h]; rfl

/-! ### A relation between the state before and the state after -/

/-- The primitives that collecting and committing a body use. -/
structure Collects (R : State → State → Prop) : Prop where
  refl : ∀ s, R s s
  trans : ∀ {a b c}, R a b → R b c → R a c
  push : ∀ b s, R s (stackPush b s)
  pop : ∀ s, R s (stackPop s).2
  pend : ∀ s p, R s { s with pend := p }
  raise : ∀ b s, R s (raise b s)
  store : ∀ slot body s, body.length + 1 ≤ s.hp.val → slot.toNat < 16 → R s (storeProcedure slot body s)

/-- All the primitives of the block. -/
structure Closed (R : State → State → Prop) : Prop extends Collects R where
  accept : ∀ op s, R s (acceptOpcode op s)
  defN : ∀ s n, R s { s with defN := n }
  remove : ∀ off s, R s (stackRemoveAt off s)
  display : ∀ v s, R s (emit (.display v) s)
  entry : ∀ (slot : Byte) (tail : Bool) (s : State) (h : slot.toNat < 16), s.gt[slot.toNat].valid = true →
    s.depth < s.rsDepth → R s (pushFrame tail s.gt[slot.toNat].addr s)
  abort : ∀ b s, R s (abort b s)
  terminate : ∀ s, R s (terminate s)

variable {R : State → State → Prop}

theorem Collects.body (C : Collects R) (n : Nat) (acc : List Byte) (s : State) : R s (popBody n acc s).2 := by
  induction n generalizing acc s with
  | zero => exact C.refl s
  | succ n ih => exact C.trans (C.pop s) (ih _ _)

theorem Collects.commit (C : Collects R) (s : State) : R s (defineCommit s) := by
  simp only [defineCommit]
  refine C.trans (C.body s.defN.toNat [] s) (C.trans (C.pop _) ?_)
  generalize (stackPop (popBody s.defN.toNat [] s).2).2 = u
  generalize (stackPop (popBody s.defN.toNat [] s).2).1 = slot
  generalize (popBody s.defN.toNat [] s).1 = body
  unfold commitChecked
  split
  · split
    · exact C.trans (C.raise _ _) (C.raise _ _)
    · exact C.raise _ _
  · split
    · exact C.raise _ _
    · exact C.store _ _ _ (by omega) (by omega)

theorem Collects.operand (C : Collects R) (b : Byte) (s : State) : R s (collectOperand b s) :=
  C.trans (C.push b s) (C.pend (stackPush b s) ((stackPush b s).pend - 1#8))

theorem Collects.operands (C : Collects R) (body : List Byte) (s : State) : R s (collectBody body s) := by
  induction body generalizing s with
  | nil => exact C.refl s
  | cons b body ih =>
    simp only [collectBody]
    split
    · exact C.trans (C.operand b s) (C.commit _)
    · exact C.trans (C.operand b s) (ih _)

theorem Closed.openDefine (C : Closed R) (s : State) : R s (openDefine s) :=
  C.trans (C.accept 3#4 s) (C.trans (C.pop _) (C.trans (C.defN _ (stackPop (acceptOpcode 3#4 s)).1)
    (C.pend { (stackPop (acceptOpcode 3#4 s)).2 with defN := (stackPop (acceptOpcode 3#4 s)).1 }
      (stackPop (acceptOpcode 3#4 s)).1)))

theorem Closed.openPush (C : Closed R) (s : State) : R s (openPush s) :=
  C.trans (C.accept 1#4 s) (C.pend (acceptOpcode 1#4 s) 1#8)

theorem Closed.popTwo (C : Closed R) (s : State) : R s (popTwo s).2.2 := C.trans (C.pop s) (C.pop _)

theorem Closed.enter (C : Closed R) (slot : Byte) (tail : Bool) (s : State) : R s (enter slot tail s) := by
  by_cases h : slot.toNat < 16
  · cases hv : s.gt[slot.toNat].valid
    · rw [enter_of_undefSlot tail h hv]; split
      · exact C.trans (C.raise _ _) (C.terminate _)
      · exact C.raise _ _
    · by_cases hd : s.depth < s.rsDepth
      · rw [enter_of_room tail h hv hd]; exact C.entry slot tail s h hv hd
      · rw [enter_of_full tail h hv hd]; exact C.abort _ _
  · rw [enter_of_badSlot s tail (by omega)]; split
    · exact C.trans (C.raise _ _) (C.terminate _)
    · exact C.raise _ _

theorem Closed.exec (C : Closed R) (i : Instr) (s : State) : ∃ t, exec i s = .next t ∧ R s t := by
  cases i <;> refine ⟨_, rfl, ?_⟩
  case push imm => exact C.trans (C.openPush s) (C.operand _ _)
  case define body =>
    show R s (if _ then _ else _)
    split
    · exact C.trans (C.openDefine s) (C.commit _)
    · exact C.trans (C.openDefine s) (C.operands _ _)
  case jnz =>
    show R s (if _ then _ else _)
    split
    · exact C.trans (C.accept _ s) (C.popTwo _)
    · exact C.trans (C.trans (C.accept _ s) (C.popTwo _)) (C.enter _ _ _)
  case call => exact C.trans (C.trans (C.accept _ s) (C.pop _)) (C.enter _ _ _)
  case add => exact C.trans (C.trans (C.accept _ s) (C.popTwo _)) (C.push _ _)
  case sub => exact C.trans (C.trans (C.accept _ s) (C.popTwo _)) (C.push _ _)
  case copy => exact C.trans (C.trans (C.accept _ s) (C.pop _)) (C.push _ _)
  case del => exact C.trans (C.trans (C.accept _ s) (C.pop _)) (C.remove _ _)
  case stackcount => exact C.trans (C.accept _ s) (C.display _ _)
  case showTop => exact C.trans (C.accept _ s) (C.display _ _)
  case ret => exact C.trans (C.accept _ s) (C.terminate _)
  all_goals exact C.accept _ s

theorem Closed.dispatch (C : Closed R) (op : Nibble) (s : State) : ∃ t, dispatch op s = .next t ∧ R s t := by
  unfold Machine.dispatch; split
  · exact C.exec _ _
  · exact ⟨_, rfl, C.refl _⟩
  · exact ⟨_, rfl, C.commit _⟩

theorem Closed.feed (C : Closed R) (b : Byte) (s : State) : ∃ t, feed b s = .next t ∧ R s t := by
  unfold Machine.feed; split
  · unfold feedOpcode; split
    · exact ⟨_, rfl, C.refl _⟩
    · split
      · exact C.exec _ _
      · exact ⟨_, rfl, C.openPush s⟩
      · split
        · obtain ⟨t, h1, h2⟩ := C.dispatch 3#4 (Machine.openDefine s)
          exact ⟨t, h1, C.trans (C.openDefine s) h2⟩
        · exact ⟨_, rfl, C.openDefine s⟩
  · unfold feedOperand; split
    · obtain ⟨t, h1, h2⟩ := C.dispatch s.curOp (collectOperand b s)
      exact ⟨t, h1, C.trans (C.operand b s) h2⟩
    · exact ⟨_, rfl, C.operand b s⟩

/-- What a step without a reset request is: nothing, an abort, or one value fed. -/
theorem step_cases {s t : State} (hr : s.rst = false) (h : step s = .next t) :
    (s.depth = 0 ∧ s.input = [] ∧ t = s) ∨
    (s.depth ≠ 0 ∧ s.pc.val = 256 ∧ t = abort .fetchOob s) ∨
    (s.depth = 0 ∧ ∃ n rest, s.input = n :: rest ∧ feed (zext8 n) { s with input := rest } = .next t) ∨
    (s.depth ≠ 0 ∧ s.pc.val < 256 ∧ feed (csFetch s.pc.val s) { s with pc := countUp s.pc } = .next t) := by
  by_cases hd : s.depth = 0
  · have e : step s = topLevelStep s := by simp [step, coreStep, hr, hd]
    rw [e, topLevelStep] at h
    cases hi : s.input with
    | nil => rw [hi] at h; exact .inl ⟨hd, rfl, (Host.Outcome.next.inj h).symm⟩
    | cons n rest => rw [hi] at h; exact .inr (.inr (.inl ⟨hd, n, rest, rfl, h⟩))
  · have e : step s = procedureStep s := by simp [step, coreStep, hr, hd]
    rw [e, procedureStep] at h
    by_cases hp : s.pc.val = 256
    · rw [if_pos hp] at h; exact .inr (.inl ⟨hd, hp, (Host.Outcome.next.inj h).symm⟩)
    · rw [if_neg hp] at h
      have := s.pc.isLt
      exact .inr (.inr (.inr ⟨hd, by omega, h⟩))

theorem Closed.step (C : Closed R) (hin : ∀ s rest, R s { s with input := rest })
    (hpc : ∀ s p, 0 < s.depth → p.val = s.pc.val + 1 → R s { s with pc := p })
    {s t : State} (hr : s.rst = false) (h : step s = .next t) : R s t := by
  rcases step_cases hr h with ⟨-, -, rfl⟩ | ⟨-, -, rfl⟩ | ⟨-, n, rest, -, hf⟩ | ⟨hd, hlt, hf⟩
  · exact C.refl _
  · exact C.abort _ _
  · obtain ⟨t', h1, h2⟩ := C.feed (zext8 n) { s with input := rest }
    rw [← next_unique h1 hf]; exact C.trans (hin s rest) h2
  · obtain ⟨t', h1, h2⟩ := C.feed (csFetch s.pc.val s) { s with pc := countUp s.pc }
    rw [← next_unique h1 hf]
    exact C.trans (hpc s _ (Nat.pos_of_ne_zero hd) (countUp_val _ hlt)) h2

/-! ### The instructions of format Z -/

theorem formatZ_ne {op : Nibble} {i : Instr} (h : formatOf op = .z i) :
    (∀ body, i ≠ .define body) ∧ ∀ imm, i ≠ .push imm := by
  have : op.toNat < 16 := op.isLt
  have h2 : op = BitVec.ofNat 4 op.toNat := by simp
  generalize op.toNat = k at this h2
  subst h2
  interval_cases k <;> simp [formatOf, opcodeMap] at h <;> subst h <;> simp

theorem enter_awaits_opcode (slot : Byte) (tail : Bool) {s : State} (h : s.pend = 0#8) :
    (enter slot tail s).pend = 0#8 := by
  rcases enter_cases slot tail s with ⟨-, -, e⟩ | ⟨-, -, e⟩ | ⟨_, -, -, e⟩ | ⟨_, -, -, e⟩ <;> rw [e] <;>
    simp [h, abort, pushFrame]

/-- After an instruction of format Z the decoder awaits an opcode. -/
theorem formatZ_awaits_opcode {op : Nibble} {i : Instr} (h : formatOf op = .z i) {s t : State} (hp : s.pend = 0#8)
    (he : exec i s = .next t) : t.pend = 0#8 := by
  obtain ⟨h1, h2⟩ := formatZ_ne h
  cases i <;> simp at he <;> subst he
  case push b => exact absurd rfl (h2 b)
  case define b => exact absurd rfl (h1 b)
  case jnz => split <;> simp [hp, enter_awaits_opcode]
  all_goals simp [hp, enter_awaits_opcode]

/-- An instruction of format Z writes no code. -/
theorem formatZ_code {op : Nibble} {i : Instr} (h : formatOf op = .z i) {s t : State} (he : exec i s = .next t) :
    t.code = s.code ∧ t.hp = s.hp := by
  obtain ⟨h1, h2⟩ := formatZ_ne h
  cases i <;> simp at he <;> subst he
  case push b => exact absurd rfl (h2 b)
  case define b => exact absurd rfl (h1 b)
  case jnz => split <;> simp
  all_goals simp

/-! ### A relation between two machines that take the same step -/

/-- The primitives take related states to related states and answer the same of both. -/
structure Agrees (Q : State → State → Prop) : Prop where
  pend : ∀ {s t}, Q s t → s.pend = t.pend
  depth : ∀ {s t}, Q s t → s.depth = t.depth
  sp : ∀ {s t}, Q s t → s.sp = t.sp
  hp : ∀ {s t}, Q s t → s.hp = t.hp
  rsDepth : ∀ {s t}, Q s t → s.rsDepth = t.rsDepth
  valid : ∀ {s t}, Q s t → ∀ k (h : k < 16), s.gt[k].valid = t.gt[k].valid
  addr : ∀ {s t}, Q s t → ∀ k (h : k < 16), s.gt[k].valid = true → s.gt[k].addr = t.gt[k].addr
  push : ∀ {s t}, Q s t → ∀ b, Q (stackPush b s) (stackPush b t)
  popValue : ∀ {s t}, Q s t → (stackPop s).1 = (stackPop t).1
  pop : ∀ {s t}, Q s t → Q (stackPop s).2 (stackPop t).2
  peek : ∀ {s t}, Q s t → ∀ off, stackPeek off s = stackPeek off t
  remove : ∀ {s t}, Q s t → ∀ off, Q (stackRemoveAt off s) (stackRemoveAt off t)
  setPend : ∀ {s t}, Q s t → ∀ p, Q { s with pend := p } { t with pend := p }
  setDefN : ∀ {s t}, Q s t → ∀ p, Q { s with defN := p } { t with defN := p }
  accept : ∀ {s t}, Q s t → ∀ op, Q (acceptOpcode op s) (acceptOpcode op t)
  raise : ∀ {s t}, Q s t → ∀ b, Q (raise b s) (raise b t)
  emit : ∀ {s t}, Q s t → ∀ b, Q (emit b s) (emit b t)
  store : ∀ {s t}, Q s t → ∀ slot body, body.length + 1 ≤ s.hp.val → slot.toNat < 16 →
    Q (storeProcedure slot body s) (storeProcedure slot body t)
  pushFrame : ∀ {s t}, Q s t → ∀ tail a, s.depth < s.rsDepth → Q (pushFrame tail a s) (pushFrame tail a t)
  abort : ∀ {s t}, Q s t → ∀ b, Q (abort b s) (abort b t)
  terminate : ∀ {s t}, Q s t → Q (terminate s) (terminate t)

variable {Q : State → State → Prop} {s t : State}

theorem Agrees.body (A : Agrees Q) (h : Q s t) (n : Nat) (acc : List Byte) :
    (popBody n acc s).1 = (popBody n acc t).1 ∧ Q (popBody n acc s).2 (popBody n acc t).2 := by
  induction n generalizing acc s t with
  | zero => exact ⟨rfl, h⟩
  | succ n ih => simp only [popBody, A.popValue h]; exact ih (A.pop h) _

theorem Agrees.commit (A : Agrees Q) (h : Q s t) (hn : s.defN = t.defN) : Q (defineCommit s) (defineCommit t) := by
  obtain ⟨h1, h2⟩ := A.body h t.defN.toNat []
  have h3 := A.popValue h2; have h4 := A.pop h2
  simp only [defineCommit, hn, h1, h3]
  revert h4
  generalize (stackPop _).2 = u
  generalize (stackPop (popBody t.defN.toNat [] t).2).2 = v
  generalize (stackPop _).1 = slot
  generalize (popBody _ _ _).1 = body
  intro h4
  have := A.hp h4
  simp only [commitChecked, this]
  split
  · split
    · exact A.raise (A.raise h4 _) _
    · exact A.raise h4 _
  · split
    · exact A.raise h4 _
    · exact A.store h4 _ _ (by rw [this]; omega) (by omega)

theorem Agrees.operand (A : Agrees Q) (h : Q s t) (b : Byte) : Q (collectOperand b s) (collectOperand b t) := by
  have h1 := A.push h b
  simp only [collectOperand, A.pend h1]
  exact A.setPend h1 _

theorem Agrees.openDefine (A : Agrees Q) (h : Q s t) :
    Q (openDefine s) (openDefine t) ∧ (openDefine s).defN = (openDefine t).defN := by
  have h1 := A.accept h 3#4
  have h2 := A.popValue h1
  have h3 := A.setPend (A.setDefN (A.pop h1) (stackPop (acceptOpcode 3#4 t)).1) (stackPop (acceptOpcode 3#4 t)).1
  simp only [Machine.openDefine, h2]
  exact ⟨h3, trivial⟩

theorem Agrees.openPush (A : Agrees Q) (h : Q s t) : Q (openPush s) (openPush t) := A.setPend (A.accept h 1#4) _

theorem Agrees.enter (A : Agrees Q) (h : Q s t) (slot : Byte) (tail : Bool) :
    Q (enter slot tail s) (enter slot tail t) := by
  by_cases hs : slot.toNat < 16
  · have hv := A.valid h _ hs
    cases hv1 : s.gt[slot.toNat].valid
    · rw [enter_of_undefSlot tail hs hv1, enter_of_undefSlot tail hs (by rw [← hv, hv1])]
      split
      · exact A.terminate (A.raise h _)
      · exact A.raise h _
    · have ha := A.addr h _ hs hv1
      have hv2 : t.gt[slot.toNat].valid = true := by rw [← hv, hv1]
      by_cases hd : s.depth < s.rsDepth
      · rw [enter_of_room tail hs hv1 hd, enter_of_room tail hs hv2 (by rw [← A.depth h, ← A.rsDepth h]; exact hd), ha]
        exact A.pushFrame h _ _ hd
      · rw [enter_of_full tail hs hv1 hd, enter_of_full tail hs hv2 (by rw [← A.depth h, ← A.rsDepth h]; exact hd)]
        exact A.abort h _
  · rw [enter_of_badSlot s tail (by omega), enter_of_badSlot t tail (by omega)]
    split
    · exact A.terminate (A.raise h _)
    · exact A.raise h _

theorem Agrees.popTwo (A : Agrees Q) (h : Q s t) :
    (popTwo s).1 = (popTwo t).1 ∧ (popTwo s).2.1 = (popTwo t).2.1 ∧ Q (popTwo s).2.2 (popTwo t).2.2 :=
  ⟨A.popValue h, A.popValue (A.pop h), A.pop (A.pop h)⟩

theorem Agrees.exec (A : Agrees Q) (h : Q s t) {i : Instr} (hd : ∀ body, i ≠ .define body) :
    ∃ s' t', exec i s = .next s' ∧ exec i t = .next t' ∧ Q s' t' := by
  by_cases hj : i = .jnz
  · subst hj
    obtain ⟨h1, h2, h3⟩ := A.popTwo (A.accept h 11#4)
    refine ⟨_, _, exec_jnz s, exec_jnz t, ?_⟩
    rw [h1]
    by_cases hc : (Machine.popTwo (acceptOpcode 11#4 s)).2.1 = 0#8
    · rw [if_pos hc, if_pos (by rw [← h2]; exact hc)]; exact h3
    · rw [if_neg hc, if_neg (by rw [← h2]; exact hc)]; exact A.enter h3 _ _
  cases i <;> refine ⟨_, _, rfl, rfl, ?_⟩
  case jnz => exact absurd rfl hj
  case push imm => exact A.operand (A.openPush h) imm
  case define body => exact absurd rfl (hd body)
  case call =>
    have h1 := A.accept h 5#4
    show Q (Machine.enter (stackPop (acceptOpcode 5#4 s)).1 _ _) _
    rw [A.popValue h1]; exact A.enter (A.pop h1) _ _
  case add =>
    obtain ⟨h1, h2, h3⟩ := A.popTwo (A.accept h 2#4)
    show Q (stackPush ((Machine.popTwo (acceptOpcode 2#4 s)).1 + (Machine.popTwo (acceptOpcode 2#4 s)).2.1) _) _
    rw [h1, h2]; exact A.push h3 _
  case sub =>
    obtain ⟨h1, h2, h3⟩ := A.popTwo (A.accept h 10#4)
    show Q (stackPush ((Machine.popTwo (acceptOpcode 10#4 s)).2.1 - (Machine.popTwo (acceptOpcode 10#4 s)).1) _) _
    rw [h1, h2]; exact A.push h3 _
  case copy =>
    have h1 := A.accept h 9#4
    show Q (stackPush (stackPeek (stackPop (acceptOpcode 9#4 s)).1 (stackPop (acceptOpcode 9#4 s)).2) _) _
    rw [A.popValue h1, A.peek (A.pop h1)]; exact A.push (A.pop h1) _
  case del =>
    have h1 := A.accept h 8#4
    show Q (stackRemoveAt (stackPop (acceptOpcode 8#4 s)).1 _) _
    rw [A.popValue h1]; exact A.remove (A.pop h1) _
  case stackcount =>
    show Q (Machine.emit (.display (BitVec.ofNat 8 (min s.sp.val _))) _) _
    rw [A.sp h]; exact A.emit (A.accept h _) _
  case showTop =>
    show Q (Machine.emit (.display (stackPeek 0#8 s)) _) _
    rw [A.peek h]; exact A.emit (A.accept h _) _
  case ret => exact A.terminate (A.accept h _)
  all_goals exact A.accept h _

theorem Agrees.dispatch (A : Agrees Q) (h : Q s t) (op : Nibble) (hn : op = 3#4 → s.defN = t.defN) (hp : s.pend = 0#8) :
    ∃ s' t', dispatch op s = .next s' ∧ dispatch op t = .next t' ∧ Q s' t' ∧ s'.pend = 0#8 := by
  unfold Machine.dispatch
  split
  · rename_i i hf
    obtain ⟨s', t', h1, h2, h3⟩ := A.exec h (formatZ_ne hf).1
    exact ⟨s', t', h1, h2, h3, formatZ_awaits_opcode hf hp h1⟩
  · exact ⟨_, _, rfl, rfl, h, hp⟩
  · rename_i hf
    exact ⟨_, _, rfl, rfl, A.commit h (hn (by clear hn; revert hf; revert op; decide)), by simp [hp]⟩

/-- One value fed to both. `cur_op` and `def_n` need only agree where the decoder will read them. -/
theorem Agrees.feed (A : Agrees Q) (h : Q s t) (b : Byte)
    (hc : s.pend ≠ 0#8 → s.curOp = t.curOp ∧ (s.curOp = 3#4 → s.defN = t.defN)) :
    ∃ s' t', feed b s = .next s' ∧ feed b t = .next t' ∧ Q s' t' ∧
      (s'.pend ≠ 0#8 → s'.curOp = t'.curOp ∧ (s'.curOp = 3#4 → s'.defN = t'.defN)) := by
  have hpd := A.pend h
  unfold Machine.feed
  by_cases hp : s.pend = 0#8
  · have hpt : t.pend = 0#8 := by rw [← hpd, hp]
    rw [if_pos hp, if_pos hpt]
    unfold feedOpcode
    split
    · exact ⟨_, _, rfl, rfl, h, fun h => absurd hp h⟩
    · split
      · rename_i i hf
        obtain ⟨s', t', h1, h2, h3⟩ := A.exec h (formatZ_ne hf).1
        exact ⟨s', t', h1, h2, h3, fun h => absurd (formatZ_awaits_opcode hf hp h1) h⟩
      · exact ⟨_, _, rfl, rfl, A.openPush h, fun _ =>
          ⟨rfl, fun h => absurd (show (1#4 : Nibble) = 3#4 from h) (by decide)⟩⟩
      · obtain ⟨h1, h2⟩ := A.openDefine h
        have h3 := A.pend h1
        by_cases hz : (Machine.openDefine s).pend = 0#8
        · rw [if_pos hz, if_pos (by rw [← h3]; exact hz)]
          obtain ⟨s', t', a1, a2, a3, a4⟩ := A.dispatch h1 3#4 (fun _ => h2) hz
          exact ⟨s', t', a1, a2, a3, fun h => absurd a4 h⟩
        · rw [if_neg hz, if_neg (by rw [← h3]; exact hz)]
          exact ⟨_, _, rfl, rfl, h1, fun _ => ⟨by simp, fun _ => h2⟩⟩
  · have hpt : t.pend ≠ 0#8 := by rw [← hpd]; exact hp
    rw [if_neg hp, if_neg hpt]
    obtain ⟨hc1, hc2⟩ := hc hp
    have h1 := A.operand h b
    have h3 := A.pend h1
    unfold feedOperand
    by_cases hz : (collectOperand b s).pend = 0#8
    · rw [if_pos hz, if_pos (by rw [← h3]; exact hz), hc1]
      obtain ⟨s', t', a1, a2, a3, a4⟩ := A.dispatch h1 t.curOp (by simpa [hc1] using hc2) hz
      exact ⟨s', t', a1, a2, a3, fun h => absurd a4 h⟩
    · rw [if_neg hz, if_neg (by rw [← h3]; exact hz)]
      exact ⟨_, _, rfl, rfl, h1, fun _ => by simpa [hc1] using hc2⟩

end Sys2Proof.Machine
end

