-- ==== Sys2Proof/Tests/Slice0.lean ====
section
/-! SUPPORT. Tests: what the spec's own examples and vectors (95_test_vectors.md) give for one instruction or one step, and a
witness for the hypotheses of every statement that has some. -/

namespace Sys2Proof.Tests

open Sys2Proof Sys2Proof.Machine

/-! ### Helpers -/

/-- The reset state with plain values where R32 gives none, and a return stack of `frames` frames. -/
def blank (frames : Nat) : State :=
  { State.resetWith 0 with
    gt := Vector.replicate 16 ⟨false, 0#8⟩
    rs := List.replicate frames ⟨0, false⟩ }

/-- The same with the stack `vs`, base first. -/
def withCells (vs : List Byte) : State :=
  { blank 3 with
    stack := vs.zipIdx.map fun p => (p.2, p.1)
    sp := Fin.ofNat 257 vs.length }

/-- What is true of the state an instruction leaves. -/
def leaves (i : Instr) (s : State) (p : State → Bool) : Bool :=
  match exec i s with
  | .next t => p t
  | .fault _ => false
  | .refused _ => false

/-- What is true of the state a step leaves. -/
def stepLeaves (s : State) (p : State → Bool) : Bool :=
  match step s with
  | .next t => p t
  | .fault _ => false
  | .refused _ => false

/-! ### Well-formedness -/

theorem test_ill_formed_immediate : (Instr.push 16#8).wellFormed = false := by decide
theorem test_ill_formed_body_symbol : (Instr.define [1#8, 16#8]).wellFormed = false := by decide
theorem test_ill_formed_body_length (b : Byte) : bodyFits (List.replicate 256 b) = false := by
  rw [bodyFits, List.length_replicate]; rfl
theorem test_longest_body_fits (b : Byte) : bodyFits (List.replicate 255 b) = true := by
  rw [bodyFits, List.length_replicate]; rfl
theorem test_well_formed_push : (Instr.push 15#8).wellFormed = true := by decide

/-! ### Decoding: the words of 30_encoding.md R85, written out bit by bit -/

theorem test_decode_noop : decode 0 [0b0000#8] = .instr .noop [] := by decide
theorem test_decode_push : decode 0 [0b0001#8, 0b0111#8] = .instr (.push 7#8) [] := by decide
theorem test_decode_add : decode 0 [0b0010#8] = .instr .add [] := by decide
theorem test_decode_define : decode 3 [0b0011#8, 0b0001#8, 0b0001#8, 0b0010#8] = .instr (.define [1#8, 1#8, 2#8]) [] := by
  decide
theorem test_decode_define_empty : decode 0 [0b0011#8, 0b0001#8, 0b0001#8, 0b0010#8] =
    .instr (.define []) [0b0001#8, 0b0001#8, 0b0010#8] := by decide
theorem test_decode_ret : decode 0 [0b0100#8] = .instr .ret [] := by decide
theorem test_decode_call : decode 0 [0b0101#8] = .instr .call [] := by decide
theorem test_decode_stackcount : decode 0 [0b0110#8] = .instr .stackcount [] := by decide
theorem test_decode_show : decode 0 [0b0111#8] = .instr .showTop [] := by decide
theorem test_decode_del : decode 0 [0b1000#8] = .instr .del [] := by decide
theorem test_decode_copy : decode 0 [0b1001#8] = .instr .copy [] := by decide
theorem test_decode_sub : decode 0 [0b1010#8] = .instr .sub [] := by decide
theorem test_decode_jnz : decode 0 [0b1011#8] = .instr .jnz [] := by decide
theorem test_decode_rsv12 : decode 0 [0b1100#8] = .instr .rsv12 [] := by decide
theorem test_decode_rsv13 : decode 0 [0b1101#8] = .instr .rsv13 [] := by decide
theorem test_decode_rsv14 : decode 0 [0b1110#8] = .instr .rsv14 [] := by decide
/-- Vector D3: the symbol after `page2` is an opcode. -/
theorem test_decode_page2 : decode 0 [0b1111#8, 0b0001#8] = .instr .page2 [0b0001#8] := by decide
theorem test_decode_nothing : decode 0 [] = .rejected .noSymbol := by decide
theorem test_decode_unknown : decode 0 [16#8] = .rejected (.unknownOpcode 16#8) := by decide
theorem test_decode_push_short : decode 0 [1#8] = .rejected .missingOperands := by decide
theorem test_decode_define_short : decode 3 [3#8, 1#8, 1#8] = .rejected .missingOperands := by decide

/-- 30_encoding.md R90: `1 s 5`, `1 k 8`, `1 k 9`, `1 s B`, `1 0 9`, `1 0 8`. -/
theorem test_pseudo_instructions :
    assemble (pseudoCall 3#4) = [1#4, 3#4, 5#4] ∧ assemble (pseudoDel 1#4) = [1#4, 1#4, 8#4] ∧
    assemble (pseudoCopy 1#4) = [1#4, 1#4, 9#4] ∧ assemble (pseudoJnz 2#4) = [1#4, 2#4, 11#4] ∧
    assemble pseudoDup = [1#4, 0#4, 9#4] ∧ assemble pseudoDrop = [1#4, 0#4, 8#4] := by decide

/-- 44_define.md R158: `def 1 [ push 1 ; add ]` is `1 1  1 3  3  1 1 2`. -/
theorem test_pseudo_def :
    assemble (pseudoDef 1#4 [.push 1#8, .add]) = [1#4, 1#4, 1#4, 3#4, 3#4, 1#4, 1#4, 2#4] := by decide

/-- A table word: `push 7` is the symbols `1 7`, the first in bits 3..0. -/
theorem test_table_word_push : decodeTableWord 8 0x71 = some (.push 7#8) := by decide
theorem test_table_word_jnz : decodeTableWord 4 0xB = some .jnz := by decide
theorem test_table_word_define : decodeTableWord 8 0x03 = some (.define []) := by decide

/-- The step after placing `show` emits its event. -/
theorem test_fetch_word_show :
    stepLeaves (State.reset.withFetchWord 8 0x07) (fun t => t.events == [.display 0#8]) = true := by decide
/-- The step after placing `push 7` accepts its opcode, with the operand next. -/
theorem test_fetch_word_push :
    stepLeaves (State.reset.withFetchWord 8 0x71) (fun t => t.pend == 1#8 && t.input == [7#4]) = true := by decide

/-! ### The instructions -/

/-- Vector D1. -/
theorem test_noop : leaves .noop (withCells [5#8]) (fun t => t.curOp == 0#4 && t.cells == [5#8]) = true := by decide
/-- Vector D5. -/
theorem test_push : leaves (.push 15#8) (blank 1) (fun t => t.cells == [15#8]) = true := by decide
/-- Vector D7: the operand is dropped and counted. -/
theorem test_push_full :
    leaves (.push 7#8) { blank 1 with sp := 256 } (fun t => t.fault == 1#6 && t.sp == 256 && t.pend == 0#8) = true := by
  decide
/-- Vector A3. -/
theorem test_add_wraps : leaves .add (withCells [200#8, 100#8]) (fun t => t.cells == [44#8]) = true := by decide
/-- Vector A1. -/
theorem test_add_empty : leaves .add (withCells []) (fun t => t.cells == [0#8]) = true := by decide
/-- Vector A7. -/
theorem test_sub_wraps : leaves .sub (withCells [3#8, 5#8]) (fun t => t.cells == [254#8]) = true := by decide
/-- Vector A9. -/
theorem test_sub_one_cell : leaves .sub (withCells [7#8]) (fun t => t.cells == [249#8]) = true := by decide
/-- Vector S3b. -/
theorem test_del : leaves .del (withCells [11#8, 22#8, 33#8, 1#8]) (fun t => t.cells == [11#8, 33#8]) = true := by decide
/-- Vector M9. -/
theorem test_del_clamps :
    leaves .del (withCells [10#8, 20#8, 30#8, 200#8]) (fun t => t.cells == [20#8, 30#8]) = true := by decide
/-- Vector S3a. -/
theorem test_copy :
    leaves .copy (withCells [11#8, 22#8, 33#8, 1#8]) (fun t => t.cells == [11#8, 22#8, 33#8, 22#8]) = true := by decide
/-- Vector M13. -/
theorem test_copy_out_of_range :
    leaves .copy (withCells [10#8, 20#8, 30#8, 3#8]) (fun t => t.cells == [10#8, 20#8, 30#8, 0#8]) = true := by decide
/-- Vector O4. -/
theorem test_stackcount_clamps :
    leaves .stackcount { blank 1 with sp := 16 } (fun t => t.events == [.display 15#8]) = true := by decide
/-- Vector O2. -/
theorem test_stackcount :
    leaves .stackcount { blank 1 with sp := 14 } (fun t => t.events == [.display 14#8]) = true := by decide
/-- Vector O7: eight bits, and no pop. -/
theorem test_show :
    leaves .showTop (withCells [200#8]) (fun t => t.events == [.display 200#8] && t.cells == [200#8]) = true := by decide
/-- Vector O6. -/
theorem test_show_empty : leaves .showTop (withCells []) (fun t => t.events == [.display 0#8]) = true := by decide
/-- 44_define.md R158. -/
theorem test_define :
    leaves (.define [1#8, 1#8, 2#8]) (withCells [1#8, 3#8]) (fun t =>
      t.code == [(252, 1#8), (253, 1#8), (254, 2#8), (255, 4#8)] && t.gt[1] == ⟨true, 252#8⟩ && t.hp == 252) = true := by
  decide
/-- Vector F13: both checks are made. -/
theorem test_define_rejected :
    leaves (.define [6#8, 7#8]) { withCells [16#8, 2#8] with hp := 2 } (fun t =>
      t.fault == 6#6 && t.cells == [] && t.hp == 2) = true := by decide

/-- Program P5 after step 39: slot 0 called slot 1, which tail-jumped to slot 2. -/
def inTail : State :=
  { withCells [9#8] with
    rs := [⟨0, false⟩, ⟨245, false⟩, ⟨252, true⟩]
    depth := 3
    pc := 255 }

/-- Program P5, step 41. -/
theorem test_ret_cascade :
    leaves .ret inTail (fun t => t.depth == 1 && t.pc == 245 && t.events == [.execEnd, .execEnd]) = true := by decide
/-- Vector S6a: at top level `ret` changes nothing. -/
theorem test_ret_top_level :
    leaves .ret (blank 1) (fun t => t == { blank 1 with curOp := 4#4 }) = true := by decide

/-- Program P5 before step 34, with the slot of `call` and that of `jnz` assigned. -/
def inProcedure (vs : List Byte) : State :=
  { withCells vs with
    gt := ((Vector.replicate 16 ⟨false, 0#8⟩).set 1 ⟨true, 247#8⟩).set 2 ⟨true, 254#8⟩
    depth := 1
    pc := 245 }

/-- Program P5, step 34. -/
theorem test_call :
    leaves .call (inProcedure [9#8, 1#8]) (fun t =>
      t.depth == 2 && t.pc == 247 && t.frame 1 == ⟨245, false⟩ && t.events == [.execBegin]) = true := by decide
/-- Vector C9r: the return stack is full. -/
theorem test_call_full :
    leaves .call { inProcedure [5#8, 1#8] with rs := [⟨0, false⟩] } (fun t =>
      t.depth == 0 && t.fault == 16#6 && t.cells == [5#8] && t.events == [.execEnd]) = true := by decide
/-- Program P5, step 39. -/
theorem test_jnz :
    leaves .jnz { inProcedure [9#8, 1#8, 2#8] with depth := 2, pc := 252 } (fun t =>
      t.depth == 3 && t.pc == 254 && t.frame 2 == ⟨252, true⟩ && t.cells == [9#8]) = true := by decide
/-- Vector C16: a taken jump to an unassigned slot ends the procedure. -/
theorem test_jnz_undefined :
    leaves .jnz (inProcedure [1#8, 9#8]) (fun t =>
      t.depth == 0 && t.fault == 8#6 && t.events == [.execEnd]) = true := by decide
/-- Vector D2. -/
theorem test_rsv12 : leaves .rsv12 (withCells [1#8]) (fun t => t == { withCells [1#8] with curOp := 12#4 }) = true := by
  decide
/-- Vector D2. -/
theorem test_rsv13 : leaves .rsv13 (withCells [1#8]) (fun t => t == { withCells [1#8] with curOp := 13#4 }) = true := by
  decide
/-- Vector D2. -/
theorem test_rsv14 : leaves .rsv14 (withCells [1#8]) (fun t => t == { withCells [1#8] with curOp := 14#4 }) = true := by
  decide
/-- Vector D2. -/
theorem test_page2 : leaves .page2 (withCells [1#8]) (fun t => t == { withCells [1#8] with curOp := 15#4 }) = true := by
  decide

/-! ### The step -/

/-- A procedure at its last byte: the state of program P2 before step 17, with the body of 44_define.md R158. -/
def running : State :=
  { withCells [3#8] with
    code := [(252, 1#8), (253, 1#8), (254, 2#8), (255, 4#8)]
    hp := 252
    gt := (Vector.replicate 16 ⟨false, 0#8⟩).set 1 ⟨true, 252#8⟩
    depth := 1
    pc := 255
    events := [.execBegin] }

/-- Program P2, step 17: the marker ends the procedure. -/
theorem test_step_marker :
    stepLeaves running (fun t => t.depth == 0 && t.events == [.execBegin, .execEnd] && t.cells == [3#8]) = true := by decide
/-- Vector C12: a marker taken as an operand. -/
theorem test_step_marker_is_data :
    stepLeaves { running with curOp := 1#4, pend := 1#8 } (fun t => t.cells == [3#8, 4#8] && t.depth == 1 && t.pc == 256) =
      true := by decide
/-- Vector C18: the fetch past the top of the code store. -/
theorem test_step_fetch_oob :
    stepLeaves { running with curOp := 3#4, pend := 1#8, pc := 256 } (fun t =>
      t.fault == 32#6 && t.pend == 0#8 && t.depth == 0 && t.cells == [3#8]) = true := by decide
/-- Vector F5: the opcode of `define` alone. -/
theorem test_step_define_opens :
    stepLeaves { withCells [2#8] with input := [3#4] } (fun t =>
      t.cells == [] && t.pend == 2#8 && t.defN == 2#8 && t.curOp == 3#4 && t.hp == 256) = true := by decide
/-- Vector D6: the opcode of `push` alone. -/
theorem test_step_push_opens :
    stepLeaves { blank 1 with input := [1#4] } (fun t => t.pend == 1#8 && t.curOp == 1#4 && t.cells == []) = true := by decide

/-! ### Ports and positions -/

/-- 00_scope.md R9: the kinds and values of events. -/
theorem test_event_kinds :
    (Event.display 200#8).kind = 0#2 ∧ Event.execBegin.kind = 1#2 ∧ Event.execEnd.kind = 2#2 ∧
    (Event.display 200#8).value = some 200#8 := by decide
/-- 70_reset_and_hazards.md R231, 10_state.md R22: the signals and the cursor after reset. -/
theorem test_reset_signals :
    State.reset.inReady = true ∧ State.reset.busy = false ∧ State.reset.cursor = some 255 := by decide
theorem test_reset_depth : State.reset.rsDepth = 16 := by decide

/-! ### Witnesses: a state and operands that meet the hypotheses of each statement, one for each of its clauses, at the ends of
the ranges -/

theorem witness_decodeInvertsEncode :
    (Instr.push 15#8).wellFormed = true ∧ (Instr.define [0#8, 15#8]).wellFormed = true ∧ [0#8, 15#8].length = 2 := by decide

theorem witness_encodeInvertsDecode :
    2 ≤ 255 ∧ (∀ b ∈ [3#8, 0#8, 15#8, 7#8], b.toNat < 16) ∧
    decode 2 [3#8, 0#8, 15#8, 7#8] = .instr (.define [0#8, 15#8]) [7#8] := by decide

theorem witness_valuesAboveFifteen :
    16 ≤ (16#8).toNat ∧ (blank 1).pend = 0#8 ∧
    ({ blank 1 with pend := 1#8, curOp := 1#4, sp := 255 } : State).pend ≠ 0#8 ∧
    ({ blank 1 with pend := 1#8, curOp := 1#4, sp := 255 } : State).sp.val < 256 := by decide

theorem witness_stackPush : ({ blank 1 with sp := 256 } : State).sp.val = 256 ∧ ({ blank 1 with sp := 255 } : State).sp.val < 256 := by
  decide

theorem witness_stackPop : (withCells []).cells = [] ∧ (withCells [7#8]).cells = [] ++ [7#8] := by decide

theorem witness_stackRemoveAt : (withCells []).cells = [] ∧ (withCells [7#8]).cells ≠ [] := by decide

theorem witness_slotLookup :
    16 ≤ (16#8).toNat ∧ (15#8).toNat < 16 ∧ (blank 1).gt[(15#8).toNat].valid = false ∧
    (inProcedure []).gt[(1#8).toNat].valid = true := by decide

/-- Pops of two cells, of one, of none. -/
theorem witness_popTwo :
    (PopsTo (withCells [5#8, 3#8]).cells [5#8] 3#8 ∧ PopsTo [5#8] [] 5#8) ∧
    (PopsTo (withCells [3#8]).cells [] 3#8 ∧ PopsTo [] [] 0#8) ∧ PopsTo (withCells []).cells [] 0#8 := by
  unfold PopsTo; decide

/-- An exact fit with slot 15, and an empty stack, which defines slot 0. -/
theorem witness_defineStores :
    (PopsTo ({ withCells [15#8, 2#8] with hp := 3 } : State).cells [15#8] 2#8 ∧ PopsTo [15#8] [] 15#8 ∧
      [6#8, 7#8].length = (2#8).toNat ∧ [15#8].length + 2 ≤ 256 ∧ 2 + 1 ≤ ({ withCells [15#8, 2#8] with hp := 3 } : State).hp.val ∧
      (15#8).toNat < 16) ∧
    (PopsTo (withCells []).cells [] 0#8 ∧ PopsTo [] [] 0#8 ∧ ([] : List Byte).length = (0#8).toNat ∧ (0#8).toNat < 16) := by
  unfold PopsTo; decide

/-- One byte short, and slot 16. -/
theorem witness_defineRejected :
    (PopsTo ({ withCells [0#8, 2#8] with hp := 2 } : State).cells [0#8] 2#8 ∧ PopsTo [0#8] [] 0#8 ∧
      ({ withCells [0#8, 2#8] with hp := 2 } : State).hp.val < [6#8, 7#8].length + 1) ∧
    (PopsTo (withCells [16#8, 0#8]).cells [16#8] 0#8 ∧ PopsTo [16#8] [] 16#8 ∧ 16 ≤ (16#8).toNat) := by
  unfold PopsTo; decide

/-- A full stack with the size 2 on top: of two pushes, the second is dropped. -/
def fullStack : State :=
  { blank 1 with
    stack := [(253, 15#8), (254, 5#8), (255, 2#8)]
    sp := 256 }

/-- The cells of `fullStack` below its `256 - n` topmost ones. -/
def fullStackBelow (n : Nat) : List Byte := (List.range n).map fullStack.cell

theorem fullStackBelow_succ (n : Nat) : fullStackBelow (n + 1) = fullStackBelow n ++ [fullStack.cell n] := by
  simp [fullStackBelow, List.range_succ]

theorem fullStackBelow_length (n : Nat) : (fullStackBelow n).length = n := by simp [fullStackBelow]

/-- A dropped push: the body is the older cell 5 and the symbol 6, and the slot is 15 (44_define.md R156 (c)). -/
theorem witness_definePushesDropped :
    PopsTo fullStack.cells (fullStackBelow 255) 2#8 ∧ [6#8, 7#8].length = (2#8).toNat ∧
    cellsPushed (fullStackBelow 255) ([6#8, 7#8].take 2) = fullStackBelow 254 ++ [5#8, 6#8] ∧
    PopsTo (fullStackBelow 254) (fullStackBelow 253) 15#8 := by
  refine ⟨.inl (fullStackBelow_succ 255), rfl, ?_, .inl (fullStackBelow_succ 253)⟩
  have h : fullStackBelow 255 = fullStackBelow 254 ++ [5#8] := fullStackBelow_succ 254
  have hl : (fullStackBelow 254 ++ [5#8, 6#8]).length = 256 := by
    rw [List.length_append, fullStackBelow_length]; rfl
  have e : fullStackBelow 255 ++ [6#8, 7#8] = (fullStackBelow 254 ++ [5#8, 6#8]) ++ [7#8] := by rw [h]; simp
  rw [cellsPushed, Config.stackCap, show [6#8, 7#8].take 2 = [6#8, 7#8] from rfl, e, ← hl, List.take_left]

/-- A body longer than the size popped, and a shorter one. -/
theorem witness_defineFrame :
    (PopsTo (withCells [15#8, 1#8]).cells [15#8] 1#8 ∧ (1#8).toNat ≤ [6#8, 7#8].length ∧
      cellsPushed [15#8] ([6#8, 7#8].take 1) = [15#8] ++ [6#8] ∧ PopsTo [15#8] [] 15#8) ∧
    (PopsTo (withCells [15#8, 3#8]).cells [15#8] 3#8 ∧ [6#8, 7#8].length < (3#8).toNat) := by
  unfold PopsTo; decide

/-- The state in which a commit runs: the body above its slot. -/
theorem witness_commitLaysOutBody :
    ({ withCells [15#8, 6#8, 7#8] with hp := 3, defN := 2#8 } : State).cells = [15#8] ++ [6#8, 7#8] ∧
    [6#8, 7#8].length = ({ withCells [15#8, 6#8, 7#8] with hp := 3, defN := 2#8 } : State).defN.toNat ∧
    PopsTo [15#8] [] 15#8 ∧ 2 + 1 ≤ ({ withCells [15#8, 6#8, 7#8] with hp := 3, defN := 2#8 } : State).hp.val ∧
    (15#8).toNat < 16 := by
  unfold PopsTo; decide

theorem witness_commitRejects :
    ({ withCells [16#8, 6#8, 7#8] with hp := 2, defN := 2#8 } : State).cells = [16#8] ++ [6#8, 7#8] ∧
    [6#8, 7#8].length = ({ withCells [16#8, 6#8, 7#8] with hp := 2, defN := 2#8 } : State).defN.toNat ∧
    PopsTo [16#8] [] 16#8 ∧ ({ withCells [16#8, 6#8, 7#8] with hp := 2, defN := 2#8 } : State).hp.val < 2 + 1 ∧
    16 ≤ (16#8).toNat := by
  unfold PopsTo; decide

theorem witness_retAtTopLevel : (blank 1).depth = 0 := by decide

/-- One tail frame above a call frame above the outermost one; and nothing but tail frames. -/
theorem witness_retUnwinds :
    (inTail.depth = 1 + 1 + 1 ∧ (∀ k, 1 < k → k < inTail.depth → (inTail.frame k).tail = true) ∧
      (inTail.frame 1).tail = false) ∧
    ∀ k, k < ({ inTail with rs := [⟨0, true⟩], depth := 1 } : State).depth →
      (({ inTail with rs := [⟨0, true⟩], depth := 1 } : State).frame k).tail = true := by
  refine ⟨⟨rfl, fun k h1 h2 => ?_, rfl⟩, fun k h => ?_⟩
  · have h3 : k < 3 := h2
    have : k = 2 := by omega
    subst this; rfl
  · have h1 : k < 1 := h
    have : k = 0 := by omega
    subst this; rfl

/-- The last free frame. -/
theorem witness_callEnters :
    PopsTo ({ inProcedure [9#8, 1#8] with depth := 2 } : State).cells [9#8] 1#8 ∧ (1#8).toNat < 16 ∧
    ({ inProcedure [9#8, 1#8] with depth := 2 } : State).gt[(1#8).toNat].valid = true ∧
    ({ inProcedure [9#8, 1#8] with depth := 2 } : State).depth < ({ inProcedure [9#8, 1#8] with depth := 2 } : State).rsDepth := by
  unfold PopsTo; decide

/-- A test value of 0, and a stack of the slot alone. -/
theorem witness_jnzNotTaken :
    (PopsTo (withCells [0#8, 1#8]).cells [0#8] 1#8 ∧ PopsTo [0#8] [] 0#8) ∧
    (PopsTo (withCells [3#8]).cells [] 3#8 ∧ PopsTo [] [] 0#8) := by
  unfold PopsTo; decide

theorem witness_jnzTaken :
    PopsTo (inProcedure [9#8, 255#8, 2#8]).cells [9#8, 255#8] 2#8 ∧ PopsTo [9#8, 255#8] [9#8] 255#8 ∧ 255#8 ≠ 0#8 ∧
    (2#8).toNat < 16 ∧ (inProcedure [9#8, 255#8, 2#8]).gt[(2#8).toNat].valid = true ∧
    (inProcedure [9#8, 255#8, 2#8]).depth < (inProcedure [9#8, 255#8, 2#8]).rsDepth := by
  unfold PopsTo; decide

/-- Slot 16 and the unassigned slot 15, for `call` and for a taken `jnz`. -/
theorem witness_invalidSlot :
    (PopsTo (inProcedure [16#8]).cells [] 16#8 ∧ 16 ≤ (16#8).toNat) ∧
    (PopsTo (inProcedure [15#8]).cells [] 15#8 ∧ (15#8).toNat < 16 ∧ (inProcedure [15#8]).gt[(15#8).toNat].valid = false) ∧
    (PopsTo (inProcedure [1#8, 16#8]).cells [1#8] 16#8 ∧ PopsTo [1#8] [] 1#8 ∧ 1#8 ≠ 0#8) ∧
    (PopsTo (inProcedure [1#8, 15#8]).cells [1#8] 15#8 ∧ (inProcedure [1#8, 15#8]).gt[(15#8).toNat].valid = false) := by
  unfold PopsTo; decide

theorem witness_fullReturnStack :
    (PopsTo ({ inProcedure [5#8, 1#8] with depth := 3 } : State).cells [5#8] 1#8 ∧
      ({ inProcedure [5#8, 1#8] with depth := 3 } : State).gt[(1#8).toNat].valid = true ∧
      ({ inProcedure [5#8, 1#8] with depth := 3 } : State).depth = ({ inProcedure [5#8, 1#8] with depth := 3 } : State).rsDepth) ∧
    (PopsTo ({ inProcedure [5#8, 1#8] with depth := 3 } : State).cells [5#8] 1#8 ∧ PopsTo [5#8] [] 5#8 ∧ 5#8 ≠ 0#8) := by
  unfold PopsTo; decide

theorem witness_stackWords :
    (withCells [9#8, 1#8, 2#8]).cells = [9#8] ++ [1#8, 2#8] ∧ (withCells [9#8, 1#8, 2#8]).sp.val ≤ 254 := by decide

theorem witness_resetRequest : ({ running with rst := true } : State).rst = true := rfl

theorem witness_takes_input :
    Takes { withCells [2#8] with input := [15#4, 1#4] } 15#8 { withCells [2#8] with input := [1#4] } :=
  ⟨rfl, .inl ⟨rfl, 15#4, [1#4], rfl, by decide, rfl⟩⟩

/-- The last byte of the code store. -/
theorem witness_takes_code : Takes running 4#8 { running with pc := 256 } :=
  ⟨rfl, .inr ⟨by decide, by decide, by decide, 256, by decide, rfl⟩⟩

theorem witness_fetchPastTop :
    ({ running with pc := 256 } : State).rst = false ∧ 0 < ({ running with pc := 256 } : State).depth ∧
    ({ running with pc := 256 } : State).pc.val = 256 := by decide

theorem witness_idle : (blank 1).rst = false ∧ (blank 1).inReady = true ∧ (blank 1).inValid = false := by decide

/-- Where an opcode is awaited: format Z (above), `push`, `define` of size 0 and of another size, and a value of 16. -/
theorem witness_stepRunsDecoded :
    (Takes { blank 1 with input := [7#4] } 7#8 (blank 1) ∧ (blank 1).pend = 0#8 ∧ decode 0 [7#8] = .instr .showTop []) ∧
    Takes { blank 1 with input := [1#4] } 1#8 (blank 1) ∧
    (Takes { blank 1 with input := [3#4] } 3#8 (blank 1) ∧ PopsTo (blank 1).cells [] 0#8) ∧
    (Takes { withCells [2#8] with input := [3#4] } 3#8 (withCells [2#8]) ∧ PopsTo (withCells [2#8]).cells [] 2#8) ∧
    Takes { running with code := [(255, 16#8)] } 16#8 { running with code := [(255, 16#8)], pc := 256 } := by
  refine ⟨⟨⟨rfl, .inl ⟨rfl, 7#4, [], rfl, by decide, rfl⟩⟩, rfl, by decide⟩, ⟨rfl, .inl ⟨rfl, 1#4, [], rfl, by decide, rfl⟩⟩,
    ⟨⟨rfl, .inl ⟨rfl, 3#4, [], rfl, by decide, rfl⟩⟩, .inr ⟨rfl, rfl, rfl⟩⟩,
    ⟨⟨rfl, .inl ⟨rfl, 3#4, [], rfl, by decide, rfl⟩⟩, .inl (by decide)⟩,
    ⟨rfl, .inr ⟨by decide, by decide, by decide, 256, by decide, rfl⟩⟩⟩

theorem witness_operandIsCollected :
    (({ blank 1 with pend := 2#8, curOp := 3#4 } : State).pend ≠ 0#8 ∧ ({ blank 1 with pend := 2#8, curOp := 3#4 } : State).pend ≠ 1#8) ∧
    (({ blank 1 with pend := 1#8, curOp := 1#4 } : State).pend = 1#8 ∧ ({ blank 1 with pend := 1#8, curOp := 1#4 } : State).curOp = 1#4) ∧
    (({ blank 1 with pend := 1#8, curOp := 3#4 } : State).pend = 1#8 ∧ ({ blank 1 with pend := 1#8, curOp := 3#4 } : State).curOp = 3#4) := by
  decide

theorem witness_instructionAtTopLevel :
    (Instr.define [1#8, 2#8]).wellFormed = true ∧ (withCells [1#8, 2#8]).rst = false ∧ (withCells [1#8, 2#8]).depth = 0 ∧
    (withCells [1#8, 2#8]).pend = 0#8 ∧
    ({ withCells [1#8, 2#8] with input := [3#4, 1#4, 2#4, 7#4] } : State).input = encode (.define [1#8, 2#8]) ++ [7#4] ∧
    [1#8, 2#8].length = (stackPop { withCells [1#8, 2#8] with input := [3#4, 1#4, 2#4, 7#4] }).1.toNat := by decide

/-- The marker at the top, and a `push` before it. -/
theorem witness_instructionInProcedure :
    (running.rst = false ∧ 0 < running.depth ∧ running.pend = 0#8 ∧
      decode (stackPop running).1.toNat (codeFrom running running.pc.val) = .instr .ret []) ∧
    decode (stackPop { running with pc := 252 }).1.toNat (codeFrom { running with pc := 252 } 252) =
      .instr (.push 1#8) [2#8, 4#8] := by decide

theorem running_inv : Inv running where
  stackWf := by decide
  codeWf := by decide
  stackWritten := by decide
  codeWritten a := by
    simp only [running, Memory.read]
    split_ifs <;> simp <;> omega
  topMarker _ := rfl
  tableAddr := by decide
  waiting h := absurd rfl h
  rsDepthPositive := by decide
  depthBound := by decide
  pcAbove _ := by decide
  retAbove k h1 h2 := by have h3 : k < 1 := h2; omega

theorem running_symbols : SymbolInv running where
  codeSymbols _ a h1 h2 := by
    have h3 : 252 ≤ a := h1
    interval_cases a <;> decide
  bodySymbols _ h := absurd rfl h

theorem running_balanced : EventsBalanced running := by unfold EventsBalanced; decide

/-- The state after `running`'s step. -/
def returned : State :=
  { running with curOp := 4#4, depth := 0, pc := 0, events := [.execBegin, .execEnd] }

theorem running_step : step running = .next returned := rfl

theorem witness_resetMeetsInvariant : 0 < 1 := by decide

theorem witness_stepKeeps :
    Inv running ∧ SymbolInv running ∧ EventsBalanced running ∧ step running = .next returned :=
  ⟨running_inv, running_symbols, running_balanced, running_step⟩

theorem witness_fetchReads : Inv running ∧ 0 < running.depth ∧ running.pc.val < 256 := ⟨running_inv, by decide, by decide⟩

theorem witness_stepWithFault :
    ({ running with fault := 8#6 } : State).rst = false ∧ ({ running with fault := 8#6 } : State).hasFault .undefSlot = true ∧
    step { running with fault := 8#6 } = .next { returned with fault := 8#6 } := ⟨rfl, by decide, rfl⟩

/-- An instruction that pushes a frame, and a step, a reset included. -/
theorem witness_returnStack :
    (∃ t, exec .call (inProcedure [9#8, 1#8]) = .next t) ∧ step running = .next returned ∧
    step { running with rst := true } = .next (assertRst { running with rst := true }) := ⟨⟨_, rfl⟩, running_step, rfl⟩

/-- An entry assigned before the step. -/
theorem witness_assignedEntry : running.gt[1].valid = true ∧ running.rst = false ∧ step running = .next returned :=
  ⟨by decide, rfl, running_step⟩

theorem witness_depthChanges : step running = .next returned ∧ returned.depth ≠ running.depth := ⟨running_step, by decide⟩

theorem witness_collecting :
    ({ blank 1 with pend := 2#8 } : State).pend ≠ 0#8 ∧ ({ blank 1 with pend := 2#8 } : State).pend ≠ 1#8 := by decide

theorem witness_busy : running.busy = true ∧ step running = .next returned := ⟨by decide, running_step⟩

/-- `running` with other contents where R32 gives none: above `sp`, below `hp`, in an unassigned entry, in a free frame, in the
resume address of the outermost frame, in `cur_op` and `def_n`. -/
def runningElsewhere : State :=
  { running with
    stack := [(0, 3#8), (1, 77#8)]
    gt := running.gt.set 5 ⟨false, 99#8⟩
    rs := [⟨200, false⟩, ⟨7, true⟩, ⟨0, false⟩]
    curOp := 2#4
    defN := 8#8 }

theorem runningElsewhere_inv : Inv runningElsewhere where
  stackWf := by decide
  codeWf := by decide
  stackWritten := by decide
  codeWritten := running_inv.codeWritten
  topMarker _ := rfl
  tableAddr := by decide
  waiting h := absurd rfl h
  rsDepthPositive := by decide
  depthBound := by decide
  pcAbove _ := by decide
  retAbove k h1 h2 := by have h3 : k < 1 := h2; omega

theorem witness_unobservable :
    Inv running ∧ Inv runningElsewhere ∧ SameObservable running runningElsewhere ∧ running ≠ runningElsewhere ∧
    step running = .next returned ∧
    step runningElsewhere = .next { runningElsewhere with
      curOp := 4#4, depth := 0, pc := 200, events := [.execBegin, .execEnd] } := by
  refine ⟨running_inv, runningElsewhere_inv, ?_, by decide, running_step, rfl⟩
  exact {
    sp := rfl, hp := rfl, pend := rfl, depth := rfl, rsDepth := rfl, fault := rfl, input := rfl, events := rfl, rst := rfl
    stack := by decide
    code := fun _ _ _ => rfl
    tableValid := by decide
    tableAddr := by decide
    collecting := fun h => absurd rfl h
    pc := fun _ => rfl
    frameTail := by decide
    frameRet := fun k h1 h2 => by have h3 : k < 1 := h2; omega }

theorem witness_terminates : running.rst = false := rfl

end Sys2Proof.Tests
end

/-! PROOFS. Scope (00_scope.md): `RS_DEPTH` is configuration (R6), the input stream is looked at only at top level (R8), and
the event trace only grows (R9). Each is a check of the primitives, carried to every step by `Closed` or `Agrees`. -/

namespace Sys2Proof.Machine

open Sys2Proof

/-! ### Which step is taken -/

theorem step_of_rst {s : State} (hr : s.rst = true) : step s = .next (assertRst s) := by
  simp [step, coreStep, hr]

theorem step_of_busy {s : State} (hr : s.rst = false) (hb : s.busy = true) : step s = procedureStep s := by
  have hd : s.depth ≠ 0 := by simp only [State.busy, decide_eq_true_eq] at hb; omega
  simp [step, coreStep, hr, hd]

/-! ### The size of the return stack -/

theorem rsDepth_closed : Closed fun s t => t.rsDepth = s.rsDepth where
  refl _ := rfl
  trans h₁ h₂ := h₂.trans h₁
  push b s := rsDepth_congr (stackPush_rs b s)
  pop s := rsDepth_congr (stackPop_rs s)
  pend _ _ := rfl
  raise _ _ := rfl
  store _ _ _ _ _ := rfl
  accept _ _ := rfl
  defN _ _ := rfl
  remove off s := rsDepth_congr (stackRemoveAt_rs off s)
  display _ _ := rfl
  entry _ tail s _ _ _ := pushFrame_rsDepth tail _ s
  abort _ _ := rfl
  terminate s := rsDepth_congr (terminate_rs s)

theorem exec_rsDepth {i : Instr} {s t : State} (h : exec i s = .next t) : t.rsDepth = s.rsDepth := by
  obtain ⟨u, hu, hsize⟩ := rsDepth_closed.exec i s
  rwa [next_unique h hu]

theorem step_rsDepth {s t : State} (h : step s = .next t) : t.rsDepth = s.rsDepth := by
  rcases Bool.eq_false_or_eq_true s.rst with hr | hr
  · rw [next_unique h (step_of_rst hr)]
    exact assertRst_rsDepth s
  · exact rsDepth_closed.step (fun _ _ => rfl) (fun _ _ _ _ => rfl) hr h

/-- Settles O56: no primitive changes the number of frames, and a reset keeps it. -/
theorem returnStackKeepsItsSize : Obligations.ReturnStackKeepsItsSize :=
  ⟨fun _ _ _ => exec_rsDepth, fun _ _ => step_rsDepth⟩

/-! ### The event trace -/

theorem terminate_events_prefix (s : State) : s.events <+: (terminate s).events := by
  obtain ⟨k, hk, -⟩ := terminate_events s
  exact ⟨_, hk.symm⟩

theorem events_closed : Closed fun s t => s.events <+: t.events where
  refl _ := List.prefix_rfl
  trans := List.IsPrefix.trans
  push b s := by simp
  pop s := by simp
  pend _ _ := List.prefix_rfl
  raise _ _ := List.prefix_rfl
  store _ _ _ _ _ := List.prefix_rfl
  accept _ _ := List.prefix_rfl
  defN _ _ := List.prefix_rfl
  remove off s := by simp
  display _ _ := List.prefix_append _ _
  entry _ _ _ _ _ _ := List.prefix_append _ _
  abort _ _ := List.prefix_append _ _
  terminate := terminate_events_prefix

/-- Settles O52: every primitive leaves the trace or appends to it. -/
theorem eventTraceGrows : Obligations.EventTraceGrows := by
  intro s t hr h
  obtain ⟨emitted, he⟩ :=
    events_closed.step (fun _ _ => List.prefix_rfl) (fun _ _ _ _ => List.prefix_rfl) hr h
  exact ⟨emitted, he.symm⟩

/-! ### The input stream -/

/-- The same machine under two input collaborators: in `s` the symbols `kept` are still to be delivered, in `t` the symbols
`other`, and nothing else differs. -/
def DifferInInput (kept other : List Nibble) (s t : State) : Prop :=
  s.input = kept ∧ t = { s with input := other }

theorem stackPush_withInput (b : Byte) (s : State) (other : List Nibble) :
    stackPush b { s with input := other } = { stackPush b s with input := other } := by
  unfold stackPush
  by_cases h : s.sp.val = Config.stackCap
  · simp only [if_pos h]; rfl
  · simp only [if_neg h]

theorem stackPop_withInput (s : State) (other : List Nibble) :
    stackPop { s with input := other } = ((stackPop s).1, { (stackPop s).2 with input := other }) := by
  unfold stackPop
  by_cases h : s.sp.val = 0
  · simp only [if_pos h]
  · simp only [if_neg h]; rfl

theorem stackRemoveAt_withInput (off : Byte) (s : State) (other : List Nibble) :
    stackRemoveAt off { s with input := other } = { stackRemoveAt off s with input := other } := by
  unfold stackRemoveAt
  by_cases h : s.sp.val = 0
  · simp only [if_pos h]
  · simp only [if_neg h]; rfl

theorem unwind_withInput (d : Nat) (s : State) (other : List Nibble) :
    unwind d { s with input := other } = { unwind d s with input := other } := by
  induction d generalizing s with
  | zero => rfl
  | succ d ih =>
    have hf : State.frame { s with input := other } d = s.frame d := rfl
    unfold unwind
    rw [hf]
    split
    · exact ih (emit .execEnd { s with depth := d })
    · rfl

theorem differInInput_agrees (kept other : List Nibble) : Agrees (DifferInInput kept other) where
  pend := by rintro s _ ⟨-, rfl⟩; rfl
  depth := by rintro s _ ⟨-, rfl⟩; rfl
  sp := by rintro s _ ⟨-, rfl⟩; rfl
  hp := by rintro s _ ⟨-, rfl⟩; rfl
  rsDepth := by rintro s _ ⟨-, rfl⟩; rfl
  valid := by rintro s _ ⟨-, rfl⟩ k hk; rfl
  addr := by rintro s _ ⟨-, rfl⟩ k hk -; rfl
  push := by rintro s _ ⟨hi, rfl⟩ b; exact ⟨by simp [hi], stackPush_withInput b s other⟩
  popValue := by rintro s _ ⟨-, rfl⟩; rw [stackPop_withInput s other]
  pop := by rintro s _ ⟨hi, rfl⟩; exact ⟨by simp [hi], by rw [stackPop_withInput s other]⟩
  peek := by rintro s _ ⟨-, rfl⟩ off; rfl
  remove := by rintro s _ ⟨hi, rfl⟩ off; exact ⟨by simp [hi], stackRemoveAt_withInput off s other⟩
  setPend := by rintro s _ ⟨hi, rfl⟩ p; exact ⟨hi, rfl⟩
  setDefN := by rintro s _ ⟨hi, rfl⟩ n; exact ⟨hi, rfl⟩
  accept := by rintro s _ ⟨hi, rfl⟩ op; exact ⟨hi, rfl⟩
  raise := by rintro s _ ⟨hi, rfl⟩ b; exact ⟨hi, rfl⟩
  emit := by rintro s _ ⟨hi, rfl⟩ e; exact ⟨hi, rfl⟩
  store := by rintro s _ ⟨hi, rfl⟩ slot body - -; exact ⟨hi, rfl⟩
  pushFrame := by rintro s _ ⟨hi, rfl⟩ tail a -; exact ⟨hi, rfl⟩
  abort := by rintro s _ ⟨hi, rfl⟩ b; exact ⟨hi, rfl⟩
  terminate := by rintro s _ ⟨hi, rfl⟩; exact ⟨by simp [hi], unwind_withInput s.depth s other⟩

/-- A value fed to both machines is fed with the same effect: `Feed` takes no input. -/
theorem feed_differInInput (b : Byte) {kept other : List Nibble} {s s' : State} (h : DifferInInput kept other s s') :
    ∃ t t', feed b s = .next t ∧ feed b s' = .next t' ∧ DifferInInput kept other t t' := by
  have hop : s.curOp = s'.curOp := by rw [h.2]
  have hsize : s.defN = s'.defN := by rw [h.2]
  obtain ⟨t, t', ht, ht', hd, -⟩ :=
    (differInInput_agrees kept other).feed h b fun _ => ⟨hop, fun _ => hsize⟩
  exact ⟨t, t', ht, ht', hd⟩

theorem procedureStep_differInInput (s : State) (other : List Nibble) :
    ∃ t t', procedureStep s = .next t ∧ procedureStep { s with input := other } = .next t' ∧
      DifferInInput s.input other t t' := by
  unfold procedureStep
  by_cases hpc : s.pc.val = Config.codeCap
  · simp only [if_pos hpc]
    exact ⟨_, _, rfl, rfl, rfl, rfl⟩
  · simp only [if_neg hpc]
    exact feed_differInInput (csFetch s.pc.val s) ⟨rfl, rfl⟩

theorem busy_step_differInInput {s : State} (hb : s.busy = true) (other : List Nibble) :
    ∃ t t', step s = .next t ∧ step { s with input := other } = .next t' ∧ DifferInInput s.input other t t' := by
  rcases Bool.eq_false_or_eq_true s.rst with hr | hr
  · exact ⟨_, _, step_of_rst hr, step_of_rst hr, rfl, rfl⟩
  · rw [step_of_busy hr hb, step_of_busy (s := { s with input := other }) hr hb]
    exact procedureStep_differInInput s other

/-- Settles O51: a busy core steps in the same way under every input collaborator. -/
theorem inputIsIgnoredWhileBusy : Obligations.InputIsIgnoredWhileBusy := by
  intro s t other hb h
  obtain ⟨u, u', hu, hu', hkept, rfl⟩ := busy_step_differInInput hb other
  obtain rfl := next_unique h hu
  exact ⟨hkept, hu'⟩

end Sys2Proof.Machine

/-! PROOFS. State (10_state.md): what reset gives (R32), what every step keeps (R34), and which contents no step reads (R28,
R32). A step that takes a symbol does one of the things `Fed` lists; the rest is a check of the primitives. -/

namespace Sys2Proof.Machine

open Sys2Proof

/-! ### Counters, and which step is taken without a reset request -/

theorem count_lt_of_ne {c : Count} (h : c.val ≠ 256) : c.val < 256 :=
  Nat.lt_of_le_of_ne (Nat.le_of_lt_succ c.isLt) h

theorem step_of_idle {s : State} (hr : s.rst = false) (hd : s.depth = 0) : step s = topLevelStep s := by
  simp [step, coreStep, hr, hd]

theorem step_of_depth_pos {s : State} (hr : s.rst = false) (hd : 0 < s.depth) : step s = procedureStep s :=
  step_of_busy hr (decide_eq_true hd)

/-! ### What feeding one value can do -/

theorem formatOf_eq_p {op : Nibble} (h : formatOf op = .p) : op = 1#4 := by revert op; decide

theorem formatOf_eq_d {op : Nibble} (h : formatOf op = .d) : op = 3#4 := by revert op; decide

/-- The states that `Feed(b)` can leave (40_decoder_push_nop.md R100, R101), one constructor a case. -/
inductive Fed (b : Byte) (s : State) : State → Prop
  /-- A value of 16 or more where an opcode is awaited (R107). -/
  | ignored : s.pend = 0#8 → 16 ≤ b.toNat → Fed b s s
  | formatZ {i : Instr} {t : State} : s.pend = 0#8 → formatOf (lowNibble b) = .z i → exec i s = .next t → Fed b s t
  | pushOpens : s.pend = 0#8 → Fed b s (openPush s)
  | defineOpens : s.pend = 0#8 → (openDefine s).pend ≠ 0#8 → Fed b s (openDefine s)
  | emptyDefine : s.pend = 0#8 → (openDefine s).pend = 0#8 → Fed b s (defineCommit (openDefine s))
  /-- An operand; the last one only of a `push`. -/
  | operand : s.pend ≠ 0#8 → ((collectOperand b s).pend = 0#8 → s.curOp = 1#4) → Fed b s (collectOperand b s)
  | defineCloses : s.pend ≠ 0#8 → (collectOperand b s).pend = 0#8 → s.curOp = 3#4 →
      Fed b s (defineCommit (collectOperand b s))
  /-- Only with a `cur_op` that no run has while operands are awaited (log 11). -/
  | strayOpcode {i : Instr} {t : State} : s.pend ≠ 0#8 → (collectOperand b s).pend = 0#8 →
      formatOf s.curOp = .z i → exec i (collectOperand b s) = .next t → Fed b s t

theorem fed_of_feedOpcode {b : Byte} {s t : State} (hp : s.pend = 0#8) (h : feedOpcode b s = .next t) : Fed b s t := by
  unfold feedOpcode at h
  split at h
  case isTrue hb => cases h; exact .ignored hp hb
  case isFalse =>
    split at h
    case h_1 i hf => exact .formatZ hp hf h
    case h_2 => cases h; exact .pushOpens hp
    case h_3 =>
      split at h
      case isTrue hz => cases h; exact .emptyDefine hp hz
      case isFalse hz => cases h; exact .defineOpens hp hz

theorem fed_of_feedOperand {b : Byte} {s t : State} (hp : s.pend ≠ 0#8) (h : feedOperand b s = .next t) : Fed b s t := by
  unfold feedOperand at h
  split at h
  case isTrue hz =>
    unfold dispatch at h
    split at h
    case h_1 i hf => exact .strayOpcode hp hz hf h
    case h_2 hf => cases h; exact .operand hp fun _ => formatOf_eq_p hf
    case h_3 hf => cases h; exact .defineCloses hp hz (formatOf_eq_d hf)
  case isFalse hz => cases h; exact .operand hp fun hz' => absurd hz' hz

theorem fed_of_feed {b : Byte} {s t : State} (h : feed b s = .next t) : Fed b s t := by
  unfold feed at h
  split at h
  case isTrue hp => exact fed_of_feedOpcode hp h
  case isFalse hp => exact fed_of_feedOperand hp h

@[simp] theorem openDefine_defN (s : State) : (openDefine s).defN = (openDefine s).pend := rfl

/-! ### Fault bits -/

/-- Every fault bit set in `s` is set in `t`. -/
def KeepsFaults (s t : State) : Prop := ∀ b, s.hasFault b = true → t.hasFault b = true

theorem KeepsFaults.not_before {s t : State} (h : KeepsFaults s t) {b : FaultBit} (ht : t.hasFault b = false) :
    s.hasFault b = false :=
  Bool.eq_false_of_not_eq_true fun hs => absurd (h b hs) (by simp [ht])

theorem keepsFaults_closed : Closed KeepsFaults where
  refl _ _ := id
  trans h₁ h₂ b := h₂ b ∘ h₁ b
  push b s c h := by
    unfold stackPush
    split
    · simp [raise_hasFault, h]
    · exact h
  pop s b h := by simpa [State.hasFault] using h
  pend _ _ _ := id
  raise b s c h := by simp [raise_hasFault, h]
  store _ _ _ _ _ _ := id
  accept _ _ _ := id
  defN _ _ _ := id
  remove off s b h := by simpa [State.hasFault] using h
  display _ _ _ := id
  entry _ _ _ _ _ _ _ := id
  abort b s c h := by
    show (raise b s).hasFault c = true
    simp [raise_hasFault, h]
  terminate s b h := by simpa [State.hasFault] using h

/-- Settles O47: no primitive clears a fault bit. -/
theorem faultBitsAreSticky : Obligations.FaultBitsAreSticky := fun _ _ b hr h =>
  keepsFaults_closed.step (fun _ _ _ => id) (fun _ _ _ _ _ => id) hr h b

/-! ### The code store and the table -/

/-- `t` still has what `s` had stored: `hp` has not grown, and the code bytes in use and the assigned slots are kept. -/
def KeepsCode (s t : State) : Prop :=
  t.hp.val ≤ s.hp.val ∧ (∀ a, s.hp.val ≤ a → t.code.read a = s.code.read a) ∧
    ∀ k (hk : k < 16), s.gt[k].valid = true → t.gt[k].valid = true

theorem keepsCode_of_eq {s t : State} (hhp : t.hp = s.hp) (hcode : t.code = s.code) (hgt : t.gt = s.gt) :
    KeepsCode s t := by
  simp [KeepsCode, hhp, hcode, hgt]

theorem KeepsCode.trans {s t u : State} (h₁ : KeepsCode s t) (h₂ : KeepsCode t u) : KeepsCode s u := by
  obtain ⟨hhp₁, hcode₁, hgt₁⟩ := h₁
  obtain ⟨hhp₂, hcode₂, hgt₂⟩ := h₂
  refine ⟨hhp₂.trans hhp₁, fun a ha => ?_, fun k hk => hgt₂ k hk ∘ hgt₁ k hk⟩
  rw [hcode₂ a (hhp₁.trans ha), hcode₁ a ha]

theorem storeProcedure_keepsCode {slot : Byte} {body : List Byte} {s : State} (hl : body.length + 1 ≤ s.hp.val) :
    KeepsCode s (storeProcedure slot body s) := by
  obtain ⟨hhp, hread⟩ := storeProcedure_read slot hl
  refine ⟨by omega, fun a ha => ?_, fun k hk hv => ?_⟩
  · rw [hread, if_neg (by omega)]
  · rw [storeProcedure_entry]
    split
    · rfl
    · exact hv

theorem keepsCode_closed : Closed KeepsCode where
  refl _ := keepsCode_of_eq rfl rfl rfl
  trans := KeepsCode.trans
  push b s := keepsCode_of_eq (by simp) (by simp) (by simp)
  pop s := keepsCode_of_eq (by simp) (by simp) (by simp)
  pend _ _ := keepsCode_of_eq rfl rfl rfl
  raise _ _ := keepsCode_of_eq rfl rfl rfl
  store _ _ _ hl _ := storeProcedure_keepsCode hl
  accept _ _ := keepsCode_of_eq rfl rfl rfl
  defN _ _ := keepsCode_of_eq rfl rfl rfl
  remove off s := keepsCode_of_eq (by simp) (by simp) (by simp)
  display _ _ := keepsCode_of_eq rfl rfl rfl
  entry _ _ _ _ _ _ := keepsCode_of_eq rfl rfl rfl
  abort _ _ := keepsCode_of_eq rfl rfl rfl
  terminate s := keepsCode_of_eq (by simp) (by simp) (by simp)

/-- Settles O46: only a commit writes code, below `hp`, and it only assigns slots. -/
theorem codeIsWriteOnce : Obligations.CodeIsWriteOnce := fun _ _ hr h =>
  keepsCode_closed.step (fun _ _ => keepsCode_of_eq rfl rfl rfl) (fun _ _ _ _ => keepsCode_of_eq rfl rfl rfl) hr h

/-! ### The depth and the decoder -/

/-- A value fed leaves the depth as it is, or leaves the decoder awaiting an opcode. -/
theorem feed_depth {b : Byte} {s t : State} (h : feed b s = .next t) : t.depth = s.depth ∨ t.pend = 0#8 := by
  cases fed_of_feed h with
  | ignored => exact .inl rfl
  | formatZ hp hf he => exact .inr (formatZ_awaits_opcode hf hp he)
  | pushOpens => exact .inl rfl
  | defineOpens => exact .inl (by simp)
  | emptyDefine => exact .inl (by simp)
  | operand => exact .inl (by simp)
  | defineCloses => exact .inl (by simp)
  | strayOpcode hp hz hf he => exact .inr (formatZ_awaits_opcode hf hz he)

/-- Settles O49: whatever takes or pops a frame ends with the decoder awaiting an opcode, the abort included. -/
theorem depthChangesAtOpcodeBoundary : Obligations.DepthChangesAtOpcodeBoundary := by
  intro s t h hd
  rcases Bool.eq_false_or_eq_true s.rst with hr | hr
  · rw [next_unique h (step_of_rst hr)]; rfl
  · rcases step_cases hr h with ⟨-, -, rfl⟩ | ⟨-, -, rfl⟩ | ⟨-, n, rest, -, hf⟩ | ⟨-, -, hf⟩
    · exact absurd rfl hd
    · rfl
    · exact (feed_depth hf).resolve_left hd
    · exact (feed_depth hf).resolve_left hd

/-! ### The fault register is not read -/

/-- Two states that differ at most in the fault register. -/
def DifferInFault (s t : State) : Prop := ∃ f, t = { s with fault := f }

theorem DifferInFault.ite {c : Prop} [Decidable c] {a b a' b' : State} (ha : DifferInFault a a')
    (hb : DifferInFault b b') : DifferInFault (if c then a else b) (if c then a' else b') := by
  split
  · exact ha
  · exact hb

theorem stackPop_withFault (s : State) (f : BitVec 6) :
    stackPop { s with fault := f } = ((stackPop s).1, { (stackPop s).2 with fault := f }) := by
  unfold stackPop
  by_cases h : s.sp.val = 0
  · simp only [if_pos h]
  · simp only [if_neg h]; rfl

theorem DifferInFault.unwind {s t : State} (h : DifferInFault s t) (d : Nat) :
    DifferInFault (unwind d s) (unwind d t) := by
  obtain ⟨f, rfl⟩ := h
  induction d generalizing s with
  | zero => exact ⟨f, rfl⟩
  | succ d ih => exact .ite (ih (s := Machine.emit .execEnd { s with depth := d })) ⟨f, rfl⟩

theorem differInFault_agrees : Agrees DifferInFault where
  pend := by rintro s _ ⟨f, rfl⟩; rfl
  depth := by rintro s _ ⟨f, rfl⟩; rfl
  sp := by rintro s _ ⟨f, rfl⟩; rfl
  hp := by rintro s _ ⟨f, rfl⟩; rfl
  rsDepth := by rintro s _ ⟨f, rfl⟩; rfl
  valid := by rintro s _ ⟨f, rfl⟩ k hk; rfl
  addr := by rintro s _ ⟨f, rfl⟩ k hk -; rfl
  push := by rintro s _ ⟨f, rfl⟩ b; exact .ite ⟨_, rfl⟩ ⟨f, rfl⟩
  popValue := by rintro s _ ⟨f, rfl⟩; rw [stackPop_withFault s f]
  pop := by rintro s _ ⟨f, rfl⟩; exact ⟨f, by rw [stackPop_withFault s f]⟩
  peek := by rintro s _ ⟨f, rfl⟩ off; rfl
  remove := by rintro s _ ⟨f, rfl⟩ off; exact .ite ⟨f, rfl⟩ ⟨f, rfl⟩
  setPend := by rintro s _ ⟨f, rfl⟩ p; exact ⟨f, rfl⟩
  setDefN := by rintro s _ ⟨f, rfl⟩ n; exact ⟨f, rfl⟩
  accept := by rintro s _ ⟨f, rfl⟩ op; exact ⟨f, rfl⟩
  raise := by rintro s _ ⟨f, rfl⟩ b; exact ⟨_, rfl⟩
  emit := by rintro s _ ⟨f, rfl⟩ e; exact ⟨f, rfl⟩
  store := by rintro s _ ⟨f, rfl⟩ slot body - -; exact ⟨f, rfl⟩
  pushFrame := by rintro s _ ⟨f, rfl⟩ tail a -; exact ⟨f, rfl⟩
  abort := by rintro s _ ⟨f, rfl⟩ b; exact ⟨_, rfl⟩
  terminate := by rintro s _ ⟨f, rfl⟩; exact DifferInFault.unwind ⟨f, rfl⟩ s.depth

/-! ### Two machines that take the same step -/

/-- What decides which value the next step takes, and what of `cur_op` and `def_n` it reads, is the same in both machines. -/
structure SameSymbol (s t : State) : Prop where
  rst : s.rst = t.rst
  input : s.input = t.input
  pc : 0 < s.depth → s.pc = t.pc
  fetch : 0 < s.depth → s.pc.val < 256 → csFetch s.pc.val s = csFetch s.pc.val t
  decoding : s.pend ≠ 0#8 → s.curOp = t.curOp ∧ (s.curOp = 3#4 → s.defN = t.defN)

theorem assertRst_congr {s t : State} (hd : s.rsDepth = t.rsDepth) (hi : s.input = t.input) :
    assertRst s = assertRst t := by
  simp [assertRst, hd, hi]

section
variable {Q : State → State → Prop} {s t : State}

/-- Two related machines are fed the same value, and step to related machines. -/
theorem Agrees.step (A : Agrees Q) (hrefl : ∀ u, Q u u)
    (hinput : ∀ {u v}, Q u v → ∀ rest, Q { u with input := rest } { v with input := rest })
    (hpc : ∀ {u v}, Q u v → ∀ p, Q { u with pc := p } { v with pc := p })
    (h : Q s t) (hs : SameSymbol s t) :
    ∃ s' t', step s = .next s' ∧ step t = .next t' ∧ Q s' t' ∧
      (s'.pend ≠ 0#8 → s'.curOp = t'.curOp ∧ (s'.curOp = 3#4 → s'.defN = t'.defN)) := by
  have hdepth := A.depth h
  rcases Bool.eq_false_or_eq_true s.rst with hr | hr
  · refine ⟨_, _, step_of_rst hr, step_of_rst (hs.rst ▸ hr), ?_, fun hp => absurd rfl hp⟩
    rw [assertRst_congr (A.rsDepth h) hs.input]
    exact hrefl _
  · have hrt : t.rst = false := hs.rst ▸ hr
    by_cases hd : s.depth = 0
    · rw [step_of_idle hr hd, step_of_idle hrt (hdepth ▸ hd), topLevelStep, topLevelStep, ← hs.input]
      cases s.input with
      | nil => exact ⟨s, t, rfl, rfl, h, hs.decoding⟩
      | cons n rest => exact A.feed (hinput h rest) (zext8 n) hs.decoding
    · have hpos := Nat.pos_of_ne_zero hd
      rw [step_of_depth_pos hr hpos, step_of_depth_pos hrt (hdepth ▸ hpos), procedureStep, procedureStep, ← hs.pc hpos]
      by_cases hend : s.pc.val = Config.codeCap
      · rw [if_pos hend, if_pos hend]
        exact ⟨_, _, rfl, rfl, A.abort h _, fun hp => absurd rfl hp⟩
      · have hlt := count_lt_of_ne hend
        rw [if_neg hend, if_neg hend, ← hs.fetch hpos hlt]
        exact A.feed (hpc h _) _ hs.decoding

end

/-- Settles O48: two machines that differ in the fault register alone step to such machines. -/
theorem faultRegisterIsUnobserved : Obligations.FaultRegisterIsUnobserved := by
  intro s t f h
  obtain ⟨t', u, ht, hu, ⟨f', rfl⟩, -⟩ := differInFault_agrees.step
    (fun u => ⟨u.fault, rfl⟩) (by rintro u _ ⟨f, rfl⟩ rest; exact ⟨f, rfl⟩)
    (by rintro u _ ⟨f, rfl⟩ p; exact ⟨f, rfl⟩)
    (s := s) (t := { s with fault := f }) ⟨f, rfl⟩
    { rst := rfl, input := rfl, pc := fun _ => rfl, fetch := fun _ _ => rfl, decoding := fun _ => ⟨rfl, fun _ => rfl⟩ }
  obtain rfl := next_unique h ht
  exact ⟨f', hu⟩

/-! ### What R32 leaves unspecified is not read -/

/-- `SameObservable` but for what the decoder holds: `cur_op` and `def_n` are compared where they are read
(`SameSymbol.decoding`), so that the relation survives a change of `pend` alone. -/
abbrev SameButDecoder (s t : State) : Prop :=
  SameObservable { s with curOp := 0#4, defN := 0#8 } { t with curOp := 0#4, defN := 0#8 }

theorem SameObservable.butDecoder {s t : State} (h : SameObservable s t) : SameButDecoder s t :=
  { h with collecting := fun _ => ⟨rfl, fun _ => rfl⟩ }

theorem SameButDecoder.observable {s t : State} (h : SameButDecoder s t)
    (hc : s.pend ≠ 0#8 → s.curOp = t.curOp ∧ (s.curOp = 3#4 → s.defN = t.defN)) : SameObservable s t :=
  { h with collecting := hc }

theorem sameButDecoder_refl (s : State) : SameButDecoder s s where
  sp := rfl
  hp := rfl
  pend := rfl
  depth := rfl
  rsDepth := rfl
  fault := rfl
  input := rfl
  events := rfl
  rst := rfl
  stack _ _ := rfl
  code _ _ _ := rfl
  tableValid _ _ := rfl
  tableAddr _ _ _ := rfl
  collecting _ := ⟨rfl, fun _ => rfl⟩
  pc _ := rfl
  frameTail _ _ := rfl
  frameRet _ _ _ := rfl

section
variable {s t : State}

theorem SameButDecoder.sp_eq (h : SameButDecoder s t) : s.sp = t.sp := h.sp
theorem SameButDecoder.cell_eq (h : SameButDecoder s t) {i : Nat} (hi : i < s.sp.val) : s.cell i = t.cell i :=
  h.stack i hi

theorem SameButDecoder.raise (h : SameButDecoder s t) (b : FaultBit) : SameButDecoder (raise b s) (raise b t) :=
  { h with fault := congrArg (· ||| 1#6 <<< b.index) h.fault }

theorem SameButDecoder.emit (h : SameButDecoder s t) (e : Event) : SameButDecoder (emit e s) (emit e t) :=
  { h with events := congrArg (· ++ [e]) h.events }

theorem SameButDecoder.push (h : SameButDecoder s t) (b : Byte) : SameButDecoder (stackPush b s) (stackPush b t) := by
  have hsp := h.sp_eq
  unfold stackPush
  rw [← hsp]
  split
  · exact h.raise .stkOvf
  · rename_i hroom
    have hlt := count_lt_of_ne hroom
    refine { h with sp := rfl, stack := fun i hi => ?_ }
    have hi : i < s.sp.val + 1 := by simpa [countUp_val _ hlt] using hi
    simp only [State.cell, stackRead_write]
    split
    · rfl
    · exact h.cell_eq (by omega)

theorem SameButDecoder.popValue (h : SameButDecoder s t) : (stackPop s).1 = (stackPop t).1 := by
  unfold stackPop
  rw [← h.sp_eq]
  split
  · rfl
  · exact h.cell_eq (by omega)

theorem SameButDecoder.pop (h : SameButDecoder s t) : SameButDecoder (stackPop s).2 (stackPop t).2 := by
  unfold stackPop
  rw [← h.sp_eq]
  split
  · exact h
  · refine { h with sp := rfl, stack := fun i hi => h.cell_eq ?_ }
    have hi : i < s.sp.val - 1 := hi
    omega

theorem SameButDecoder.peek (h : SameButDecoder s t) (off : Byte) : stackPeek off s = stackPeek off t := by
  unfold stackPeek
  rw [← h.sp_eq]
  split
  · exact h.cell_eq (by omega)
  · rfl

/-- The compaction moves cells in use into cells in use. -/
theorem SameButDecoder.remove (h : SameButDecoder s t) (off : Byte) :
    SameButDecoder (stackRemoveAt off s) (stackRemoveAt off t) := by
  unfold stackRemoveAt removeIndex
  rw [← h.sp_eq]
  split
  · exact h
  · refine { h with sp := rfl, stack := fun i hi => ?_ }
    have hi : i < s.sp.val - 1 := hi
    simp only [State.cell, stackRead, read_moveDown]
    split
    · exact h.cell_eq (by omega)
    · exact h.cell_eq (by omega)

/-- The bytes written are the same, and those in use before are as they were. -/
theorem SameButDecoder.store (h : SameButDecoder s t) (slot : Byte) {body : List Byte} (hl : body.length + 1 ≤ s.hp.val) :
    SameButDecoder (storeProcedure slot body s) (storeProcedure slot body t) := by
  have hhp : s.hp = t.hp := h.hp
  obtain ⟨hs, hreads⟩ := storeProcedure_read (s := s) slot hl
  obtain ⟨ht, hreadt⟩ := storeProcedure_read (s := t) slot (hhp ▸ hl)
  have hhp' : (storeProcedure slot body s).hp = (storeProcedure slot body t).hp := Fin.ext (by rw [hs, ht, hhp])
  refine { h with hp := hhp', code := fun a ha ha' => ?_, tableValid := fun k hk => ?_, tableAddr := fun k hk => ?_ }
  · have ha : (storeProcedure slot body s).hp.val ≤ a := ha
    show csFetch a (storeProcedure slot body s) = csFetch a (storeProcedure slot body t)
    simp only [csFetch, hreads, hreadt, ← hhp]
    split
    · rfl
    · exact h.code a (show s.hp.val ≤ a by omega) ha'
  · show (storeProcedure slot body s).gt[k].valid = (storeProcedure slot body t).gt[k].valid
    rw [storeProcedure_entry, storeProcedure_entry]
    split
    · rfl
    · exact h.tableValid k hk
  · show (storeProcedure slot body s).gt[k].valid = true →
      (storeProcedure slot body s).gt[k].addr = (storeProcedure slot body t).gt[k].addr
    rw [storeProcedure_entry, storeProcedure_entry, hhp']
    split
    · exact fun _ => rfl
    · exact h.tableAddr k hk

/-- The frame pushed at top level holds a `pc` that need not agree, which is the outermost resume address. -/
theorem SameButDecoder.pushFrame (h : SameButDecoder s t) (tail : Bool) (a : Byte) (hd : s.depth < s.rsDepth) :
    SameButDecoder (pushFrame tail a s) (pushFrame tail a t) := by
  have hdepth : s.depth = t.depth := h.depth
  have hsize : s.rsDepth = t.rsDepth := h.rsDepth
  obtain ⟨htop, hbelow⟩ := frame_of_set (pushFrame_rs tail a s) hd
  obtain ⟨htop', hbelow'⟩ := frame_of_set (pushFrame_rs tail a t) (show t.depth < t.rsDepth by omega)
  rw [← hdepth] at htop' hbelow'
  refine { h with
    depth := congrArg (· + 1) h.depth
    rsDepth := ((pushFrame_rsDepth tail a s).trans hsize).trans (pushFrame_rsDepth tail a t).symm
    events := congrArg (· ++ [Event.execBegin]) h.events
    pc := fun _ => rfl
    frameTail := fun k hk => ?_
    frameRet := fun k hk0 hk => ?_ }
  · have hk : k < s.depth + 1 := hk
    show ((Machine.pushFrame tail a s).frame k).tail = ((Machine.pushFrame tail a t).frame k).tail
    by_cases he : k = s.depth
    · rw [he, htop, htop']
    · rw [hbelow k he, hbelow' k he]
      exact h.frameTail k (show k < s.depth by omega)
  · have hk : k < s.depth + 1 := hk
    show ((Machine.pushFrame tail a s).frame k).retPc = ((Machine.pushFrame tail a t).frame k).retPc
    by_cases he : k = s.depth
    · rw [he, htop, htop']
      exact h.pc (show 0 < s.depth by omega)
    · rw [hbelow k he, hbelow' k he]
      exact h.frameRet k hk0 (show k < s.depth by omega)

theorem SameButDecoder.abort (h : SameButDecoder s t) (b : FaultBit) : SameButDecoder (abort b s) (abort b t) := by
  have hevents : s.events = t.events := h.events
  have hdepth : s.depth = t.depth := h.depth
  exact { h.raise b with
    events := by simp [hevents, hdepth]
    depth := rfl
    pend := rfl
    collecting := fun hp => absurd rfl hp
    pc := fun hd => absurd hd (Nat.lt_irrefl 0)
    frameTail := fun k hk => absurd hk (Nat.not_lt_zero k)
    frameRet := fun k _ hk => absurd hk (Nat.not_lt_zero k) }

/-- One `ExecEnd` is emitted for a frame that is popped. -/
theorem SameButDecoder.popFrame {d : Nat} (h : SameButDecoder s t) (hd : s.depth = d + 1) :
    SameButDecoder (Machine.emit .execEnd { s with depth := d }) (Machine.emit .execEnd { t with depth := d }) := by
  have hpop : SameButDecoder { s with depth := d } { t with depth := d } :=
    { h with
      depth := rfl
      pc := fun _ => h.pc (show 0 < s.depth by omega)
      frameTail := fun k hk => h.frameTail k (show k < s.depth from hd ▸ Nat.lt_succ_of_lt hk)
      frameRet := fun k hk0 hk => h.frameRet k hk0 (show k < s.depth from hd ▸ Nat.lt_succ_of_lt hk) }
  exact hpop.emit .execEnd

/-- The frames an unwinding reads are in use; the outermost resume address is loaded into a `pc` at top level. -/
theorem SameButDecoder.unwind {d : Nat} (h : SameButDecoder s t) (hd : s.depth = d) :
    SameButDecoder (unwind d s) (unwind d t) := by
  induction d generalizing s t with
  | zero => exact h
  | succ d ih =>
    have htail : (s.frame d).tail = (t.frame d).tail := h.frameTail d (show d < s.depth by omega)
    unfold Machine.unwind
    rw [← htail]
    split
    · exact ih (h.popFrame hd) rfl
    · exact { h.popFrame hd with pc := fun hpos => h.frameRet d hpos (show d < s.depth by omega) }

theorem SameButDecoder.terminate (h : SameButDecoder s t) : SameButDecoder (terminate s) (terminate t) := by
  have hdepth : s.depth = t.depth := h.depth
  unfold Machine.terminate
  rw [← hdepth]
  exact h.unwind rfl

end

theorem sameButDecoder_agrees : Agrees SameButDecoder where
  pend h := h.pend
  depth h := h.depth
  sp h := h.sp
  hp h := h.hp
  rsDepth h := h.rsDepth
  valid h := h.tableValid
  addr h := h.tableAddr
  push := SameButDecoder.push
  popValue := SameButDecoder.popValue
  pop := SameButDecoder.pop
  peek := SameButDecoder.peek
  remove := SameButDecoder.remove
  setPend h _ := { h with pend := rfl, collecting := fun _ => ⟨rfl, fun _ => rfl⟩ }
  setDefN h _ := h
  accept h _ := h
  raise := SameButDecoder.raise
  emit := SameButDecoder.emit
  store h slot _ hl _ := SameButDecoder.store h slot hl
  pushFrame := SameButDecoder.pushFrame
  abort := SameButDecoder.abort
  terminate := SameButDecoder.terminate

/-- The next step takes the same value: what a procedure fetches lies at `hp` or above (20_memory.md R56). -/
theorem SameObservable.sameSymbol {s t : State} (hs : Inv s) (h : SameObservable s t) : SameSymbol s t where
  rst := h.rst
  input := h.input
  pc := h.pc
  fetch hd hlt := h.code s.pc.val (hs.pcAbove hd) hlt
  decoding := h.collecting

/-- Settles O53: every primitive takes states that differ only in unspecified contents to such states, and answers the same
of both. -/
theorem unspecifiedContentsAreUnobservable : Obligations.UnspecifiedContentsAreUnobservable := by
  intro s t s' t' hs _ h hs' ht'
  obtain ⟨u, v, hu, hv, hq, hdec⟩ := sameButDecoder_agrees.step sameButDecoder_refl
    (fun h _ => { h with input := rfl }) (fun h _ => { h with pc := fun _ => rfl }) h.butDecoder (h.sameSymbol hs)
  obtain rfl := next_unique hs' hu
  obtain rfl := next_unique ht' hv
  exact SameButDecoder.observable hq hdec

/-! ### The state invariant -/

/-- `Inv` but for its item on the decoder (`Waiting`), so that it survives a change of `pend` or `cur_op` alone. -/
abbrev StoreInv (s : State) : Prop := Inv { s with pend := 0#8 }

/-- R34 item 6. -/
def Waiting (s : State) : Prop := s.pend ≠ 0#8 → s.curOp = 0b0001#4 ∨ s.curOp = 0b0011#4

/-- Inside a procedure there is a byte left to fetch: what `Enter` needs of a resume address it pushes (R27). -/
def BelowTop (s : State) : Prop := 0 < s.depth → s.pc.val < 256

theorem Inv.storeInv {s : State} (h : Inv s) : StoreInv s := { h with waiting := fun hp => absurd rfl hp }

theorem StoreInv.inv {s : State} (h : StoreInv s) (hw : Waiting s) : Inv s := { h with waiting := hw }

theorem waiting_of_pend_eq_zero {s : State} (h : s.pend = 0#8) : Waiting s := fun hp => absurd h hp

section
variable {s : State}

theorem StoreInv.accept (h : StoreInv s) (op : Nibble) : StoreInv (acceptOpcode op s) :=
  { h with waiting := fun hp => absurd rfl hp }

theorem StoreInv.push (h : StoreInv s) (b : Byte) : StoreInv (stackPush b s) := by
  have hwf := stackPush_wf b h.stackWf
  unfold stackPush at hwf ⊢
  split
  · exact { h with }
  · rename_i hroom
    rw [if_neg hroom] at hwf
    have hlt := count_lt_of_ne hroom
    refine { h with stackWf := hwf, stackWritten := fun i hi => ?_ }
    have hi : i < s.sp.val + 1 := by simpa [countUp_val _ hlt] using hi
    simp only [Memory.read_write]
    split
    · rfl
    · exact h.stackWritten i (show i < s.sp.val by omega)

theorem StoreInv.pop (h : StoreInv s) : StoreInv (stackPop s).2 := by
  unfold stackPop
  split
  · exact h
  · exact { h with stackWritten := fun i hi => h.stackWritten i (Nat.lt_of_lt_of_le hi (Nat.sub_le _ _)) }

theorem StoreInv.remove (h : StoreInv s) (off : Byte) : StoreInv (stackRemoveAt off s) := by
  have hwf := stackRemoveAt_wf off h.stackWf
  unfold stackRemoveAt at hwf ⊢
  split
  · exact h
  · rename_i hne
    rw [if_neg hne] at hwf
    refine { h with stackWf := hwf, stackWritten := fun i hi => ?_ }
    have hi : i < s.sp.val - 1 := hi
    simp only [read_moveDown]
    split
    · rfl
    · exact h.stackWritten i (show i < s.sp.val by omega)

/-- Every byte of the stored block is written; the last one, the marker, is at 255 when it is the first block. -/
theorem StoreInv.storeProcedure (h : StoreInv s) (slot : Byte) {body : List Byte} (hl : body.length + 1 ≤ s.hp.val) :
    StoreInv (storeProcedure slot body s) := by
  obtain ⟨hhp, hread⟩ := storeProcedure_read slot hl
  have hle : s.hp.val ≤ 256 := Nat.le_of_lt_succ s.hp.isLt
  have hdown : (Machine.storeProcedure slot body s).hp.val ≤ s.hp.val := by omega
  refine { h with
    codeWf := storeProcedure_wf slot hl h.codeWf
    codeWritten := fun a => ?_
    topMarker := fun _ => ?_
    tableAddr := fun k hk hv => ?_
    pcAbove := fun hd => Nat.le_trans hdown (h.pcAbove hd)
    retAbove := fun k hk0 hk => ?_ }
  · show ((Machine.storeProcedure slot body s).code.read a).isSome ↔
      (Machine.storeProcedure slot body s).hp.val ≤ a ∧ a < 256
    have hold : (s.code.read a).isSome ↔ s.hp.val ≤ a ∧ a < 256 := h.codeWritten a
    rw [hread, hhp]
    split
    · simp; omega
    · rw [hold]; omega
  · show (Machine.storeProcedure slot body s).code.read 255 = some 4#8
    rw [hread]
    split
    · rw [show 255 - (s.hp.val - (body.length + 1)) = body.length by omega]; simp
    · exact h.topMarker (show s.hp.val < 256 by omega)
  · have hv : (Machine.storeProcedure slot body s).gt[k].valid = true := hv
    show (Machine.storeProcedure slot body s).hp.val ≤ (Machine.storeProcedure slot body s).gt[k].addr.toNat
    rw [storeProcedure_entry] at hv ⊢
    split at hv
    · rename_i hslot
      rw [if_pos hslot, BitVec.toNat_ofNat]; omega
    · rename_i hslot
      rw [if_neg hslot, hhp]
      exact Nat.le_trans (Nat.sub_le _ _) (h.tableAddr k hk hv)
  · obtain ⟨hret, hlt⟩ := h.retAbove k hk0 hk
    exact ⟨Nat.le_trans hdown hret, hlt⟩

theorem StoreInv.abort (h : StoreInv s) (b : FaultBit) : StoreInv (abort b s) :=
  { h with
    depthBound := Nat.zero_le _
    pcAbove := fun hd => absurd hd (Nat.lt_irrefl 0)
    retAbove := fun k _ hk => absurd hk (Nat.not_lt_zero k) }

theorem terminate_frame (s : State) (k : Nat) : (terminate s).frame k = s.frame k := by simp [State.frame]

/-- What goes on is the top level, or a caller at the resume address of a frame that was in use. -/
theorem terminate_resumes (s : State) : (terminate s).depth = 0 ∨ terminate s = s ∨
    ((terminate s).depth < s.depth ∧ (terminate s).pc = (s.frame (terminate s).depth).retPc) := by
  rcases unwind_stops s.depth s with ⟨-, he⟩ | ⟨-, hlt, h0 | hpc⟩
  · exact .inr (.inl he)
  · exact .inl h0
  · exact .inr (.inr ⟨hlt, hpc⟩)

theorem terminate_depth_le (s : State) : (terminate s).depth ≤ s.depth := by
  obtain ⟨k, -, hk⟩ := terminate_events s
  omega

theorem StoreInv.terminate (h : StoreInv s) : StoreInv (terminate s) where
  stackWf := by simpa using h.stackWf
  codeWf := by simpa using h.codeWf
  stackWritten := by simpa using h.stackWritten
  codeWritten := by simpa using h.codeWritten
  topMarker := by simpa using h.topMarker
  tableAddr := by simpa using h.tableAddr
  waiting hp := absurd rfl hp
  rsDepthPositive := by simpa [State.rsDepth] using h.rsDepthPositive
  depthBound := by
    have hrs : (Machine.terminate s).rsDepth = s.rsDepth := rsDepth_congr (terminate_rs s)
    have hbound : s.depth ≤ s.rsDepth := h.depthBound
    show (Machine.terminate s).depth ≤ (Machine.terminate s).rsDepth
    rw [hrs]; exact Nat.le_trans (terminate_depth_le s) hbound
  pcAbove hd := by
    have hd : 0 < (Machine.terminate s).depth := hd
    show (Machine.terminate s).hp.val ≤ (Machine.terminate s).pc.val
    rcases terminate_resumes s with h0 | he | ⟨hlt, hpc⟩
    · omega
    · rw [he] at hd ⊢; exact h.pcAbove hd
    · rw [hpc, terminate_hp]; exact (h.retAbove _ hd hlt).1
  retAbove k hk0 hk := by
    show (Machine.terminate s).hp.val ≤ ((Machine.terminate s).frame k).retPc.val ∧
      ((Machine.terminate s).frame k).retPc.val < 256
    rw [terminate_frame, terminate_hp]
    exact h.retAbove k hk0 (Nat.lt_of_lt_of_le hk (terminate_depth_le s))

theorem BelowTop.terminate (hb : BelowTop s) (h : StoreInv s) : BelowTop (terminate s) := by
  intro hd
  rcases terminate_resumes s with h0 | he | ⟨hlt, hpc⟩
  · omega
  · rw [he] at hd ⊢; exact hb hd
  · rw [hpc]; exact (h.retAbove _ hd hlt).2

/-- The resume address pushed is the `pc` of the caller, which has a byte left to fetch. -/
theorem StoreInv.pushFrame (h : StoreInv s) (hb : BelowTop s) (tail : Bool) {a : Byte} (ha : s.hp.val ≤ a.toNat)
    (hd : s.depth < s.rsDepth) : StoreInv (pushFrame tail a s) := by
  obtain ⟨htop, hbelow⟩ := frame_of_set (pushFrame_rs tail a s) hd
  have hsize := pushFrame_rsDepth tail a s
  refine { h with
    rsDepthPositive := hsize ▸ h.rsDepthPositive
    depthBound := ?_
    pcAbove := fun _ => ha
    retAbove := fun k hk0 hk => ?_ }
  · show s.depth + 1 ≤ (Machine.pushFrame tail a s).rsDepth
    omega
  · have hk : k < s.depth + 1 := hk
    show s.hp.val ≤ ((Machine.pushFrame tail a s).frame k).retPc.val ∧
      ((Machine.pushFrame tail a s).frame k).retPc.val < 256
    by_cases he : k = s.depth
    · have hpos : 0 < s.depth := he ▸ hk0
      rw [he, htop]
      exact ⟨h.pcAbove hpos, hb hpos⟩
    · rw [hbelow k he]
      exact h.retAbove k hk0 (show k < s.depth by omega)

end

theorem storeInv_collects : Collects fun s t => StoreInv s → StoreInv t where
  refl _ := id
  trans h₁ h₂ := h₂ ∘ h₁
  push b _ h := h.push b
  pop _ h := h.pop
  pend _ _ h := h
  raise _ _ h := { h with }
  store slot _ _ hl _ h := h.storeProcedure slot hl

theorem running_closed : Closed fun s t => StoreInv s ∧ BelowTop s → StoreInv t ∧ BelowTop t where
  refl _ := id
  trans h₁ h₂ := h₂ ∘ h₁
  push b _ := fun ⟨hs, hb⟩ => ⟨hs.push b, by simpa [BelowTop] using hb⟩
  pop _ := fun ⟨hs, hb⟩ => ⟨hs.pop, by simpa [BelowTop] using hb⟩
  pend _ _ := id
  raise _ _ := fun ⟨hs, hb⟩ => ⟨{ hs with }, hb⟩
  store slot _ _ hl _ := fun ⟨hs, hb⟩ => ⟨hs.storeProcedure slot hl, hb⟩
  accept _ _ := fun ⟨hs, hb⟩ => ⟨hs.accept _, hb⟩
  defN _ _ := fun ⟨hs, hb⟩ => ⟨{ hs with }, hb⟩
  remove off _ := fun ⟨hs, hb⟩ => ⟨hs.remove off, by simpa [BelowTop] using hb⟩
  display _ _ := fun ⟨hs, hb⟩ => ⟨{ hs with }, hb⟩
  entry slot tail s hslot hv hd := fun ⟨hs, hb⟩ =>
    ⟨hs.pushFrame hb tail (hs.tableAddr _ hslot hv) hd, fun _ => s.gt[slot.toNat].addr.isLt⟩
  abort b _ := fun ⟨hs, _⟩ => ⟨hs.abort b, fun hd => absurd hd (Nat.lt_irrefl 0)⟩
  terminate _ := fun ⟨hs, hb⟩ => ⟨hs.terminate, hb.terminate hs⟩

theorem feed_waiting {b : Byte} {s t : State} (hw : Waiting s) (h : feed b s = .next t) : Waiting t := by
  cases fed_of_feed h with
  | ignored => exact hw
  | formatZ hp hf he => exact waiting_of_pend_eq_zero (formatZ_awaits_opcode hf hp he)
  | pushOpens => exact fun _ => .inl rfl
  | defineOpens => exact fun _ => .inr (by simp)
  | emptyDefine _ hz => exact waiting_of_pend_eq_zero (by simp [hz])
  | operand hp => exact fun _ => by simpa using hw hp
  | defineCloses _ hz => exact waiting_of_pend_eq_zero (by simpa using hz)
  | strayOpcode _ hz hf he => exact waiting_of_pend_eq_zero (formatZ_awaits_opcode hf hz he)

theorem feed_keeps_storeInv {b : Byte} {s t : State} (hs : StoreInv s) (hb : BelowTop s) (h : feed b s = .next t) :
    StoreInv t := by
  obtain ⟨u, hu, hkeeps⟩ := running_closed.feed b s
  rw [next_unique h hu]
  exact (hkeeps ⟨hs, hb⟩).1

theorem not_strayOpcode {s : State} {i : Instr} (hw : Waiting s) (hp : s.pend ≠ 0#8) (hf : formatOf s.curOp = .z i) :
    False := by
  rcases hw hp with he | he <;> rw [he] at hf <;> cases hf

/-- The marker enters no procedure, so that it may be the last byte of the code store: it is `ret`, or an operand. -/
theorem feed_marker_keeps_storeInv {s t : State} (hw : Waiting s) (hs : StoreInv s)
    (h : feed Config.retMarker s = .next t) : StoreInv t := by
  by_cases hp : s.pend = 0#8
  · have he : feed Config.retMarker s = .next (terminate (acceptOpcode 4#4 s)) := by rw [feed, if_pos hp]; rfl
    rw [next_unique h he]
    exact StoreInv.terminate (hs.accept _)
  · cases fed_of_feed h with
    | operand => exact storeInv_collects.operand _ s hs
    | defineCloses => exact storeInv_collects.commit _ (storeInv_collects.operand _ s hs)
    | strayOpcode _ _ hf => exact (not_strayOpcode hw hp hf).elim
    | ignored hz => exact absurd hz hp
    | formatZ hz => exact absurd hz hp
    | pushOpens hz => exact absurd hz hp
    | defineOpens hz => exact absurd hz hp
    | emptyDefine hz => exact absurd hz hp

theorem csFetch_top {s : State} (h : Inv s) (hd : 0 < s.depth) (hpc : s.pc.val = 255) :
    csFetch s.pc.val s = Config.retMarker := by
  have habove := h.pcAbove hd
  simp [csFetch, hpc, h.topMarker (by omega)]

theorem storeInv_countUp_pc {s : State} (h : StoreInv s) (hlt : s.pc.val < 256) : StoreInv { s with pc := countUp s.pc } :=
  { h with pcAbove := fun hd => Nat.le_trans (h.pcAbove hd) (by simp [countUp_val _ hlt]) }

theorem fetch_keeps_storeInv {s t : State} (hs : Inv s) (hd : 0 < s.depth) (hlt : s.pc.val < 256)
    (h : feed (csFetch s.pc.val s) { s with pc := countUp s.pc } = .next t) : StoreInv t := by
  have hnext := storeInv_countUp_pc hs.storeInv hlt
  by_cases htop : s.pc.val = 255
  · rw [csFetch_top hs hd htop] at h
    exact feed_marker_keeps_storeInv (s := { s with pc := countUp s.pc }) hs.waiting hnext h
  · exact feed_keeps_storeInv hnext (fun _ => by simp only [countUp_val _ hlt]; omega) h

theorem resetWith_inv {d : Nat} (hd : 0 < d) : Inv (State.resetWith d) where
  stackWf := by simp [State.resetWith, Memory.wf]
  codeWf := by simp [State.resetWith, Memory.wf]
  stackWritten i hi := absurd hi (Nat.not_lt_zero i)
  codeWritten a := by simp [State.resetWith]
  topMarker h := absurd h (Nat.lt_irrefl 256)
  tableAddr k hk hv := by simp [State.resetWith] at hv
  waiting h := absurd rfl h
  rsDepthPositive := by simpa [State.resetWith, State.rsDepth] using hd
  depthBound := Nat.zero_le _
  pcAbove h := absurd h (Nat.lt_irrefl 0)
  retAbove k _ hk := absurd hk (Nat.not_lt_zero k)

theorem assertRst_inv {s : State} (h : Inv s) : Inv (assertRst s) := { resetWith_inv h.rsDepthPositive with }

/-- Settles O42: the primitives keep the invariant but for its item on the decoder, `Enter` where the caller has a byte left to
fetch; a byte fetched at 255 is the marker, which enters nothing. -/
theorem stepKeepsInvariant : Obligations.StepKeepsInvariant := by
  intro s t hs h
  rcases Bool.eq_false_or_eq_true s.rst with hr | hr
  · rw [next_unique h (step_of_rst hr)]
    exact assertRst_inv hs
  · rcases step_cases hr h with ⟨-, -, rfl⟩ | ⟨-, -, rfl⟩ | ⟨hd, n, rest, -, hf⟩ | ⟨hd, hlt, hf⟩
    · exact hs
    · exact StoreInv.inv (hs.storeInv.abort _) (waiting_of_pend_eq_zero rfl)
    · have hs' : Inv { s with input := rest } := { hs with }
      exact StoreInv.inv (feed_keeps_storeInv hs'.storeInv (fun hpos => absurd hpos (by simp [hd])) hf)
        (feed_waiting hs'.waiting hf)
    · exact StoreInv.inv (fetch_keeps_storeInv hs (Nat.pos_of_ne_zero hd) hlt hf)
        (feed_waiting (s := { s with pc := countUp s.pc }) hs.waiting hf)

/-! ### Code bytes are symbols -/

/-- The bytes in use of the code store are symbols (R34 item 9). -/
def CodeSymbols (s : State) : Prop := ∀ a, s.hp.val ≤ a → a < 256 → (csFetch a s).toNat < 16

/-- The `n` cells on top of the stack are there and are symbols. -/
def TopSymbols (n : Nat) (s : State) : Prop :=
  n ≤ s.sp.val ∧ ∀ i, s.sp.val - n ≤ i → i < s.sp.val → (s.cell i).toNat < 16

theorem codeSymbols_of_eq {s t : State} (h : CodeSymbols s) (hcode : t.code = s.code) (hhp : t.hp = s.hp) :
    CodeSymbols t := by
  simpa [CodeSymbols, csFetch, hcode, hhp] using h

theorem symbolInv_of_awaiting {s : State} (h : s.hasFault .stkOvf = false → CodeSymbols s) (hp : s.pend = 0#8) :
    SymbolInv s where
  codeSymbols := h
  bodySymbols _ hne := absurd hp hne

theorem zext8_toNat_lt (n : Nibble) : (zext8 n).toNat < 16 := by
  have := n.isLt
  simp only [zext8, BitVec.toNat_setWidth]; omega

theorem topSymbols_zero (s : State) : TopSymbols 0 s := ⟨Nat.zero_le _, fun i h₁ h₂ => absurd h₂ (by omega)⟩

theorem TopSymbols.pop {n : Nat} {s : State} (h : TopSymbols (n + 1) s) :
    (stackPop s).1.toNat < 16 ∧ TopSymbols n (stackPop s).2 := by
  obtain ⟨hle, hcells⟩ := h
  have hne : s.sp.val ≠ 0 := by omega
  constructor
  · rw [stackPop, if_neg hne]
    exact hcells _ (by omega) (by omega)
  · have hsp := stackPop_sp_val s
    refine ⟨by omega, fun i h₁ h₂ => ?_⟩
    have hcell : (stackPop s).2.cell i = s.cell i := by simp [State.cell]
    rw [hcell]
    exact hcells i (by omega) (by omega)

theorem TopSymbols.popBody {n : Nat} {s : State} (h : TopSymbols n s) (acc : List Byte)
    (hacc : ∀ b ∈ acc, b.toNat < 16) :
    ∀ b ∈ (popBody n acc s).1, b.toNat < 16 := by
  induction n generalizing s acc with
  | zero => exact hacc
  | succ n ih =>
    obtain ⟨htop, hrest⟩ := h.pop
    exact ih hrest _ (List.forall_mem_cons.mpr ⟨htop, hacc⟩)

theorem resetWith_codeSymbols (d : Nat) : CodeSymbols (State.resetWith d) :=
  fun _ ha ha' => absurd ha' (Nat.not_lt.mpr ha)

theorem storeProcedure_codeSymbols {slot : Byte} {body : List Byte} {s : State} (hl : body.length + 1 ≤ s.hp.val)
    (h : CodeSymbols s) (hbody : ∀ b ∈ body, b.toNat < 16) : CodeSymbols (storeProcedure slot body s) := by
  obtain ⟨hhp, hread⟩ := storeProcedure_read slot hl
  have hblock : ∀ b ∈ body ++ [4#8], b.toNat < 16 := by
    simpa [or_imp, forall_and] using hbody
  intro a ha ha'
  simp only [csFetch, hread]
  split
  · rw [List.getElem?_eq_getElem (by simp; omega), Option.getD_some]
    exact hblock _ (List.getElem_mem _)
  · exact h a (by omega) ha'

theorem commitChecked_codeSymbols {slot : Byte} {body : List Byte} {s : State} (h : CodeSymbols s)
    (hbody : ∀ b ∈ body, b.toNat < 16) : CodeSymbols (commitChecked slot body s) := by
  unfold commitChecked
  split
  · split <;> exact h
  · split
    · exact h
    · exact storeProcedure_codeSymbols (by omega) h hbody

/-- A commit of a body of symbols stores symbols. -/
theorem defineCommit_codeSymbols {s : State} (h : CodeSymbols s) (htop : TopSymbols s.defN.toNat s) :
    CodeSymbols (defineCommit s) := by
  simp only [defineCommit]
  exact commitChecked_codeSymbols (codeSymbols_of_eq h (by simp) (by simp)) (htop.popBody [] (by simp))

theorem TopSymbols.push {n : Nat} {b : Byte} {s : State} (h : TopSymbols n s) (hb : b.toNat < 16) (hroom : s.sp.val < 256) :
    TopSymbols (n + 1) (stackPush b s) := by
  obtain ⟨hle, hcells⟩ := h
  have hfull : s.sp.val ≠ Config.stackCap := Nat.ne_of_lt hroom
  rw [stackPush, if_neg hfull]
  simp only [TopSymbols, State.cell, stackRead_write, countUp_val _ hroom]
  refine ⟨by omega, fun i h₁ h₂ => ?_⟩
  split
  · exact hb
  · exact hcells i (by omega) (by omega)

theorem room_of_stkOvf_eq_false {b : Byte} {s : State} (h : (stackPush b s).hasFault .stkOvf = false) : s.sp.val < 256 := by
  refine count_lt_of_ne fun hfull => ?_
  simp [stackPush, Config.stackCap, hfull, raise_hasFault] at h

theorem feed_keepsFaults {b : Byte} {s t : State} (h : feed b s = .next t) : KeepsFaults s t := by
  obtain ⟨u, hu, hkeeps⟩ := keepsFaults_closed.feed b s
  rwa [next_unique h hu]

theorem pend_sub_one {p : Byte} (hp : p ≠ 0#8) : (p - 1#8).toNat = p.toNat - 1 ∧ 0 < p.toNat := by
  have hpos : 0 < p.toNat := Nat.pos_of_ne_zero fun h => hp (BitVec.eq_of_toNat_eq h)
  exact ⟨by bv_omega, hpos⟩

/-- A symbol that arrives for a `define` and is not dropped lies on top of those collected before. -/
theorem collectOperand_topSymbols {b : Byte} {s : State} (hs : SymbolInv s) (hp : s.pend ≠ 0#8) (hop : s.curOp = 3#4)
    (hb : b.toNat < 16) (h : s.hasFault .stkOvf = false) (h' : (collectOperand b s).hasFault .stkOvf = false) :
    (collectOperand b s).pend.toNat ≤ s.defN.toNat ∧
      TopSymbols (s.defN.toNat - (collectOperand b s).pend.toNat) (collectOperand b s) := by
  obtain ⟨hle, htop⟩ : s.pend.toNat ≤ s.defN.toNat ∧ TopSymbols (s.defN.toNat - s.pend.toNat) s :=
    hs.bodySymbols h hp hop
  obtain ⟨hpend, hpos⟩ := pend_sub_one hp
  have hpush := TopSymbols.push htop hb (room_of_stkOvf_eq_false (b := b) h')
  rw [collectOperand_pend, hpend]
  refine ⟨by omega, ?_⟩
  rw [show s.defN.toNat - (s.pend.toNat - 1) = s.defN.toNat - s.pend.toNat + 1 by omega]
  exact hpush

theorem feed_keeps_symbols {b : Byte} {s t : State} (hw : Waiting s) (hs : SymbolInv s)
    (hb : s.hasFault .stkOvf = false → b.toNat < 16) (h : feed b s = .next t) : SymbolInv t := by
  have hback : t.hasFault .stkOvf = false → s.hasFault .stkOvf = false := (feed_keepsFaults h).not_before
  have hcode : t.hasFault .stkOvf = false → CodeSymbols s := fun hf => hs.codeSymbols (hback hf)
  cases fed_of_feed h with
  | ignored => exact hs
  | formatZ hp hf he =>
    obtain ⟨hc, hhp⟩ := formatZ_code hf he
    exact symbolInv_of_awaiting (fun hf => codeSymbols_of_eq (hcode hf) hc hhp) (formatZ_awaits_opcode hf hp he)
  | pushOpens => exact ⟨hcode, fun _ _ hop => absurd hop (show 1#4 ≠ 3#4 by decide)⟩
  | defineOpens =>
    refine ⟨fun hf => codeSymbols_of_eq (hcode hf) (by simp) (by simp), fun _ _ _ => ?_⟩
    rw [openDefine_defN, Nat.sub_self]
    exact ⟨Nat.le_refl _, topSymbols_zero _⟩
  | emptyDefine _ hz =>
    refine symbolInv_of_awaiting (fun hf => ?_) (by simp [hz])
    refine defineCommit_codeSymbols (codeSymbols_of_eq (hcode hf) (by simp) (by simp)) ?_
    rw [openDefine_defN, hz]
    exact topSymbols_zero _
  | operand hp =>
    refine ⟨fun hf => codeSymbols_of_eq (hcode hf) (by simp) (by simp), fun hf _ hop => ?_⟩
    rw [collectOperand_curOp] at hop
    rw [collectOperand_defN]
    exact collectOperand_topSymbols hs hp hop (hb (hback hf)) (hback hf) hf
  | defineCloses hp hz hop =>
    refine symbolInv_of_awaiting (fun hf => ?_) (by simpa using hz)
    have hf' : (collectOperand b s).hasFault .stkOvf = false :=
      (keepsFaults_closed.commit (collectOperand b s)).not_before hf
    obtain ⟨-, htop⟩ := collectOperand_topSymbols hs hp hop (hb (hback hf)) (hback hf) hf'
    rw [hz] at htop
    exact defineCommit_codeSymbols (codeSymbols_of_eq (hcode hf) (by simp) (by simp)) (by simpa using htop)
  | strayOpcode hp _ hf => exact (not_strayOpcode hw hp hf).elim

/-- Settles O43: what is fed is a symbol, from the input or from the code store, so what a commit stores is. -/
theorem stepKeepsCodeSymbols : Obligations.StepKeepsCodeSymbols := by
  intro s t hi hs h
  rcases Bool.eq_false_or_eq_true s.rst with hr | hr
  · rw [next_unique h (step_of_rst hr)]
    exact symbolInv_of_awaiting (fun _ => codeSymbols_of_eq (resetWith_codeSymbols s.rsDepth) rfl rfl) rfl
  · rcases step_cases hr h with ⟨-, -, rfl⟩ | ⟨-, -, rfl⟩ | ⟨-, n, rest, -, hf⟩ | ⟨hd, hlt, hf⟩
    · exact hs
    · exact symbolInv_of_awaiting (fun hf => hs.codeSymbols ((keepsFaults_closed.abort .fetchOob s).not_before hf)) rfl
    · exact feed_keeps_symbols (s := { s with input := rest }) hi.waiting { hs with }
        (fun _ => zext8_toNat_lt n) hf
    · exact feed_keeps_symbols (s := { s with pc := countUp s.pc }) hi.waiting { hs with }
        (fun hno => hs.codeSymbols hno _ (hi.pcAbove (Nat.pos_of_ne_zero hd)) hlt) hf

/-! ### Reset -/

/-- Settles O32. -/
theorem resetValues : Obligations.ResetValues := by
  intro d
  refine ⟨_, rfl, rfl, rfl, fun k hk => by simp [State.resetWith], rfl, rfl, rfl, rfl, rfl, ?_, rfl, rfl, rfl, rfl⟩
  simp [State.resetWith, State.rsDepth]

/-- Settles O41: after reset no byte of the code store is in use, no operand is awaited and no event was emitted. -/
theorem resetMeetsInvariant : Obligations.ResetMeetsInvariant := fun d hd =>
  ⟨resetWith_inv hd, symbolInv_of_awaiting (fun _ => resetWith_codeSymbols d) rfl, rfl⟩

end Sys2Proof.Machine

/-! PROOFS. The primitives of the operand stack, of the code store and of the table (20_memory.md R51 to R58). What a primitive
does is said for every state first; the statements read it off the cells. -/

namespace Sys2Proof.Machine

open Sys2Proof

/-! ### Push -/

theorem stackPush_of_full (b : Byte) {s : State} (h : s.sp.val = 256) : stackPush b s = raise .stkOvf s := if_pos h

theorem stackPush_of_room (b : Byte) {s : State} (h : s.sp.val < 256) :
    stackPush b s = { s with stack := s.stack.write s.sp.val b, sp := countUp s.sp } := if_neg (Nat.ne_of_lt h)

theorem stackPush_cells_of_room (b : Byte) {s : State} (h : s.sp.val < 256) : (stackPush b s).cells = s.cells ++ [b] := by
  have hfits : (s.cells ++ [b]).length ≤ 256 := by simp [cells_length]; omega
  rw [stackPush_cells, cellsPushed, List.take_of_length_le hfits]

/-- Settles O5. -/
theorem stackPushAddsOrDrops : Obligations.StackPushAddsOrDrops := by
  intro b s
  refine ⟨stackPush_of_full b, fun hroom => ⟨_, rfl, stackPush_cells_of_room b hroom, ?_, ?_, stackPush_read b s⟩⟩
  · rw [stackPush_of_room b hroom]; exact countUp_val _ hroom
  · rw [stackPush_of_room b hroom]

/-! ### Pop -/

theorem stackPop_of_empty {s : State} (h : s.cells = []) : stackPop s = (0#8, s) := if_pos ((cells_eq_nil s).1 h)

/-- Settles O6. -/
theorem stackPopTakesTop : Obligations.StackPopTakesTop := by
  refine fun s => ⟨stackPop_of_empty, fun base b htop => ?_⟩
  obtain ⟨hbase, hb⟩ := stackPop_of_popsTo (Or.inl htop)
  exact ⟨_, Prod.ext hb (stackPop_eq s), stackPop_sp_val s, hbase⟩

/-! ### Peek -/

/-- Settles O7: counted from the top, cell `i` is cell `sp - 1 - i` counted from the base. -/
theorem stackPeekReadsOffset : Obligations.StackPeekReadsOffset := by
  intro off s
  have hlen := cells_length s
  rw [stackPeek, List.getD_eq_getElem?_getD]
  by_cases hin : off.toNat < s.sp.val
  · rw [if_pos hin, List.getElem?_reverse (by omega), cells_getElem?, hlen, if_pos (by omega)]; rfl
  · rw [if_neg hin, List.getElem?_eq_none (by rw [List.length_reverse]; omega)]; rfl

/-! ### Remove-at -/

theorem removeIndex_le (off : Byte) (s : State) : removeIndex off s ≤ s.sp.val - 1 := Nat.sub_le _ _

theorem stackRemoveAt_of_empty (off : Byte) {s : State} (h : s.sp.val = 0) : stackRemoveAt off s = s := if_pos h

theorem stackRemoveAt_sp_val (off : Byte) (s : State) : (stackRemoveAt off s).sp.val = s.sp.val - 1 := by
  unfold stackRemoveAt; split
  · omega
  · exact countDown_val _

/-- Remove-at moves the cells above the index down by one and touches no other place of `S`. -/
theorem stackRemoveAt_read (off : Byte) (s : State) (j : Nat) :
    (stackRemoveAt off s).stack.read j =
      if removeIndex off s ≤ j ∧ j < s.sp.val - 1 then some (s.cell (j + 1)) else s.stack.read j := by
  have hi := removeIndex_le off s
  by_cases h : s.sp.val = 0
  · rw [stackRemoveAt_of_empty off h, if_neg (by omega)]
  · rw [stackRemoveAt, if_neg h, read_moveDown, Nat.add_sub_cancel' hi]; rfl

theorem stackRemoveAt_cell (off : Byte) {s : State} {j : Nat} (hj : j < s.sp.val - 1) :
    (stackRemoveAt off s).cell j = if j < removeIndex off s then s.cell j else s.cell (j + 1) := by
  rw [State.cell, stackRead, stackRemoveAt_read]
  by_cases hlow : j < removeIndex off s
  · rw [if_neg (by omega), if_pos hlow]; rfl
  · rw [if_pos (by omega), if_neg hlow]; rfl

/-- The cells lose exactly the one at the index. -/
theorem stackRemoveAt_cells (off : Byte) (s : State) :
    (stackRemoveAt off s).cells = s.cells.eraseIdx (removeIndex off s) := by
  apply List.ext_getElem?
  intro j
  have hi := removeIndex_le off s
  rw [List.getElem?_eraseIdx, cells_getElem?, cells_getElem?, cells_getElem?, stackRemoveAt_sp_val]
  by_cases hj : j < s.sp.val - 1
  · rw [if_pos hj, stackRemoveAt_cell off hj, if_pos (show j < s.sp.val by omega),
      if_pos (show j + 1 < s.sp.val by omega)]
    exact apply_ite some _ _ _
  · rw [if_neg hj, if_neg (show ¬ j < removeIndex off s by omega), if_neg (show ¬ j + 1 < s.sp.val by omega)]

/-- Settles O8: the cells are those of `stackRemoveAt_cells`, the places of `S` those of `stackRemoveAt_read`. -/
theorem stackRemoveAtClamps : Obligations.StackRemoveAtClamps := by
  intro off s
  refine ⟨fun hnil => stackRemoveAt_of_empty off ((cells_eq_nil s).1 hnil), fun _ =>
    ⟨_, rfl, ?_, stackRemoveAt_sp_val off s, ?_, fun j hj => ?_⟩⟩
  · rw [cells_length]; exact stackRemoveAt_cells off s
  · apply State.ext <;> simp
  · rw [stackRemoveAt_read, if_neg (by omega)]

/-! ### Fetch and lookup -/

theorem csFetch_of_read {s : State} {a : Nat} {b : Byte} (h : s.code.read a = some b) : csFetch a s = b := by
  rw [csFetch, h]; rfl

/-- Settles O45: inside a procedure `pc` is not below `hp`, and every byte from `hp` on has been written. -/
theorem fetchReadsWrittenByte : Obligations.FetchReadsWrittenByte := by
  intro s hinv hd hpc
  obtain ⟨b, hb⟩ := Option.isSome_iff_exists.1 ((hinv.codeWritten s.pc.val).2 ⟨hinv.pcAbove hd, hpc⟩)
  exact ⟨b, hb, csFetch_of_read hb⟩

/-- Settles O9: the two tests of the lookup, in its order. -/
theorem slotLookup : Obligations.SlotLookup := by
  intro slot s
  refine ⟨fun hbig => dif_neg (Nat.not_lt.2 hbig), fun h => ⟨fun hv => ?_, fun hv => ?_⟩⟩
  · rw [gtLookup, dif_pos h, if_neg (by simp [hv])]
  · rw [gtLookup, dif_pos h, if_pos hv]

end Sys2Proof.Machine

/-! PROOFS. Encoding (30_encoding.md). The opcode map is one to one (R85, R86), so `decode` answers an instruction exactly
where the values begin with its opcode and its inline operands (`decode_eq_instr_iff`). Both directions between `decode` and
`encode` are read off that. -/

namespace Sys2Proof

open Laws.OpcodeMap

/-! ### Symbols as fed values (R80) -/

theorem lowNibble_zext8 (n : Nibble) : lowNibble (zext8 n) = n := BitVec.setWidth_setWidth_of_le n (by decide)

theorem zext8_lowNibble {b : Byte} (h : b.toNat < 16) : zext8 (lowNibble b) = b := by
  apply BitVec.eq_of_toNat_eq
  simp only [zext8, lowNibble, BitVec.toNat_setWidth]
  omega

theorem map_zext8_map_lowNibble {bs : List Byte} (h : ∀ b ∈ bs, b.toNat < 16) : (bs.map lowNibble).map zext8 = bs := by
  rw [List.map_map]
  exact (List.map_congr_left fun b hb => zext8_lowNibble (h b hb)).trans (List.map_id bs)

theorem not_sixteen_le_zext8 (n : Nibble) : ¬ 16 ≤ (zext8 n).toNat := Nat.not_le.2 (Machine.zext8_toNat_lt n)

/-! ### The opcode map -/

theorem formatOf_opcodeOf : ∀ i : Instr, formatOf (opcodeOf i) = expectedFormat i
  | .noop => noop.1 | .push imm => (push imm).1 | .add => add.1 | .define body => (define body).1
  | .ret => ret.1 | .call => call.1 | .stackcount => stackcount.1 | .showTop => showTop.1
  | .del => del.1 | .copy => copy.1 | .sub => sub.1 | .jnz => jnz.1
  | .rsv12 => rsv12.1 | .rsv13 => rsv13.1 | .rsv14 => rsv14.1 | .page2 => page2.1

theorem formatOf_injective : ∀ op op' : Nibble, formatOf op = formatOf op' → op = op' := by decide

/-- An instruction that the map holds as a whole is its opcode alone. -/
theorem formatZ_opcode {op : Nibble} {i : Instr} (h : formatOf op = .z i) : op = opcodeOf i ∧ inlineOperands i = [] := by
  obtain ⟨hdefine, hpush⟩ := Machine.formatZ_ne h
  obtain ⟨hformat, hnone⟩ : expectedFormat i = .z i ∧ inlineOperands i = [] := by
    cases i with
    | push imm => exact absurd rfl (hpush imm)
    | define body => exact absurd rfl (hdefine body)
    | _ => exact ⟨rfl, rfl⟩
  exact ⟨formatOf_injective _ _ (by rw [h, formatOf_opcodeOf, hformat]), hnone⟩

/-! ### Well-formed instructions (R81, R83) -/

theorem wellFormed_iff (i : Instr) :
    i.wellFormed = true ↔
      (∀ b ∈ inlineOperands i, b.toNat < 16) ∧ ∀ body, i = .define body → body.length ≤ 255 := by
  cases i with
  | push imm => simp [Instr.wellFormed, inlineOperands, symbolFits]
  | define body => simp [Instr.wellFormed, inlineOperands, symbolFits, bodyFits, and_comm]
  | _ => simp [Instr.wellFormed, inlineOperands]

/-- The values fed for a well-formed instruction are its opcode and its inline operands themselves. -/
theorem fedBytes_of_wellFormed {i : Instr} (h : i.wellFormed = true) :
    fedBytes i = zext8 (opcodeOf i) :: inlineOperands i := by
  obtain ⟨hsymbols, -⟩ := (wellFormed_iff i).1 h
  rw [fedBytes, encode, List.map_cons, map_zext8_map_lowNibble hsymbols]

/-! ### What `decode` answers, one rule a format (R81) -/

section
variable {op : Nibble} {size : Nat} {bs tail rest : List Byte} {i j : Instr}

theorem decode_begins_with_opcode (h : decode size bs = .instr i rest) : ∃ op tail, bs = zext8 op :: tail := by
  cases bs with
  | nil => simp [decode] at h
  | cons b tail =>
    by_cases hb : 16 ≤ b.toNat
    · simp [decode, hb] at h
    · exact ⟨lowNibble b, tail, by rw [zext8_lowNibble (Nat.not_le.1 hb)]⟩

theorem decode_formatZ (h : formatOf op = .z j) :
    decode size (zext8 op :: tail) = .instr i rest ↔ j = i ∧ tail = rest := by
  simp [decode, not_sixteen_le_zext8, lowNibble_zext8, h]

theorem decode_formatP (h : formatOf op = .p) :
    decode size (zext8 op :: tail) = .instr i rest ↔ ∃ imm, .push imm = i ∧ tail = imm :: rest := by
  cases tail <;> simp [decode, not_sixteen_le_zext8, lowNibble_zext8, h]

theorem decode_formatD (h : formatOf op = .d) :
    decode size (zext8 op :: tail) = .instr i rest ↔
      ∃ body, .define body = i ∧ body.length = size ∧ tail = body ++ rest := by
  have hdecode : decode size (zext8 op :: tail) =
      if size ≤ tail.length then .instr (.define (tail.take size)) (tail.drop size)
      else .rejected .missingOperands := by
    simp [decode, not_sixteen_le_zext8, lowNibble_zext8, h]
  rw [hdecode]
  constructor
  · intro heq
    split at heq
    case isTrue hle =>
      cases heq
      exact ⟨tail.take size, rfl, List.length_take_of_le hle, (List.take_append_drop size tail).symm⟩
    case isFalse => cases heq
  · rintro ⟨body, rfl, rfl, rfl⟩
    simp

/-- `decode` answers an instruction exactly where the values begin with its opcode and its inline operands; of a `define`
the size fixes how many these are (R91). -/
theorem decode_eq_instr_iff :
    decode size bs = .instr i rest ↔
      bs = zext8 (opcodeOf i) :: (inlineOperands i ++ rest) ∧ ∀ body, i = .define body → body.length = size := by
  constructor
  · intro h
    obtain ⟨op, tail, rfl⟩ := decode_begins_with_opcode h
    cases hf : formatOf op with
    | z j =>
      obtain ⟨rfl, rfl⟩ := (decode_formatZ hf).1 h
      obtain ⟨rfl, hnone⟩ := formatZ_opcode hf
      exact ⟨by rw [hnone]; rfl, fun body hi => absurd hi ((Machine.formatZ_ne hf).1 body)⟩
    | p =>
      obtain ⟨imm, rfl, rfl⟩ := (decode_formatP hf).1 h
      obtain rfl := Machine.formatOf_eq_p hf
      exact ⟨rfl, fun _ hi => nomatch hi⟩
    | d =>
      obtain ⟨body, rfl, hsize, rfl⟩ := (decode_formatD hf).1 h
      obtain rfl := Machine.formatOf_eq_d hf
      exact ⟨rfl, fun _ hi => by cases hi; exact hsize⟩
  · rintro ⟨rfl, hsize⟩
    have hf := formatOf_opcodeOf i
    cases i with
    | push imm => exact (decode_formatP hf).2 ⟨imm, rfl, rfl⟩
    | define body => exact (decode_formatD hf).2 ⟨body, rfl, hsize body rfl, rfl⟩
    | _ => exact (decode_formatZ hf).2 ⟨rfl, rfl⟩

end

/-! ### The statements -/

/-- Settles O1: the values fed for a well-formed instruction are its opcode and its inline operands. -/
theorem decodeInvertsEncode : Obligations.DecodeInvertsEncode := by
  intro i size rest hwf hsize
  rw [fedBytes_of_wellFormed hwf]
  exact decode_eq_instr_iff.2 ⟨rfl, hsize⟩

/-- Settles O2: the inline operands are among the symbols read, and a body is as long as the size. -/
theorem encodeInvertsDecode : Obligations.EncodeInvertsDecode := by
  intro size bs i rest hsize hsymbols h
  obtain ⟨rfl, hbody⟩ := decode_eq_instr_iff.1 h
  have hwf : i.wellFormed = true := (wellFormed_iff i).2
    ⟨fun b hb => hsymbols b (by simp [hb]), fun body hi => (hbody body hi).trans_le hsize⟩
  exact ⟨hwf, by rw [fedBytes_of_wellFormed hwf]; rfl⟩

/-- Settles O3: each word is read by evaluating `decode`. -/
theorem opcodeMapWords : Obligations.OpcodeMapWords := by
  unfold Obligations.OpcodeMapWords
  decide

end Sys2Proof

/-! PROOFS. Decoder (40_decoder_push_nop.md). `Feed` is said once, one rule a case (R100, R101, R107). A step feeds the value
it takes (R170); an instruction is as many steps as it has symbols, and what a step does with an operand leaves the source
of the next one alone (`LeavesSource`), so that the symbols can be consumed first and the instruction executed after. -/

namespace Sys2Proof.Machine

open Sys2Proof

/-! ### Feed where an opcode is awaited (R100, R107) -/

section
variable {s : State}

theorem feed_of_sixteen_le {b : Byte} (hp : s.pend = 0#8) (hb : 16 ≤ b.toNat) : feed b s = .next s := by
  rw [feed, if_pos hp, feedOpcode, if_pos hb]

theorem feed_formatZ {op : Nibble} {i : Instr} (hp : s.pend = 0#8) (hf : formatOf op = .z i) :
    feed (zext8 op) s = exec i s := by
  rw [feed, if_pos hp, feedOpcode, if_neg (not_sixteen_le_zext8 op), lowNibble_zext8, hf]

theorem feed_push (hp : s.pend = 0#8) : feed (zext8 1#4) s = .next (openPush s) := by
  rw [feed, if_pos hp]; rfl

theorem feed_define (hp : s.pend = 0#8) :
    feed (zext8 3#4) s =
      if (openDefine s).pend = 0#8 then .next (defineCommit (openDefine s)) else .next (openDefine s) := by
  rw [feed, if_pos hp]; rfl

theorem openDefine_pend (s : State) : (openDefine s).pend = (stackPop s).1 := by
  by_cases hempty : s.sp.val = 0
  · simp [openDefine, stackPop, hempty]
  · simp [openDefine, stackPop, hempty, State.cell]

/-! ### Feed where an operand is awaited (R101) -/

theorem collectOperand_pend_eq_zero (b : Byte) (s : State) : (collectOperand b s).pend = 0#8 ↔ s.pend = 1#8 := by
  rw [collectOperand_pend]; bv_omega

theorem feed_operand (b : Byte) (hp : s.pend ≠ 0#8) :
    feed b s = if s.pend = 1#8 then dispatch s.curOp (collectOperand b s) else .next (collectOperand b s) := by
  rw [feed, if_neg hp, feedOperand]
  simp only [collectOperand_pend_eq_zero]

theorem feed_operand_of_more (b : Byte) (hp : s.pend ≠ 0#8) (hmore : s.pend ≠ 1#8) :
    feed b s = .next (collectOperand b s) := by
  rw [feed_operand b hp, if_neg hmore]

theorem feed_last_operand (b : Byte) (hlast : s.pend = 1#8) :
    feed b s = dispatch s.curOp (collectOperand b s) := by
  rw [feed_operand b (by simp [hlast]), if_pos hlast]

theorem dispatch_push (s : State) : dispatch 1#4 s = .next s := rfl

theorem dispatch_define (s : State) : dispatch 3#4 s = .next (defineCommit s) := rfl

/-! ### The operand collected -/

theorem collectOperand_cells_of_room (b : Byte) (h : s.sp.val < 256) : (collectOperand b s).cells = s.cells ++ [b] :=
  (cells_congr rfl rfl).trans (stackPush_cells_of_room b h)

theorem collectOperand_of_room (b : Byte) (h : s.sp.val < 256) :
    collectOperand b s =
      { s with stack := (collectOperand b s).stack, sp := (collectOperand b s).sp, pend := s.pend - 1#8 } := by
  simp only [collectOperand, stackPush_of_room b h]

theorem collectOperand_of_full (b : Byte) (h : s.sp.val = 256) :
    collectOperand b s = { raise .stkOvf s with pend := s.pend - 1#8 } := by
  simp only [collectOperand, stackPush_of_full b h, raise_pend]

theorem collectOperand_hasFault (b : Byte) {c : FaultBit} (hc : c ≠ .stkOvf) :
    (collectOperand b s).hasFault c = s.hasFault c := by
  rcases Nat.lt_or_eq_of_le (Nat.le_of_lt_succ s.sp.isLt) with hroom | hfull
  · rw [collectOperand_of_room b hroom]; rfl
  · rw [collectOperand_of_full b hfull]
    have hraise := raise_hasFault .stkOvf c s
    rwa [decide_eq_false hc.symm, Bool.or_false] at hraise

end

/-! ### The value a step takes (R170) -/

section
variable {s u : State} {b : Byte}

/-- Taking a value moves the source on and changes nothing else. -/
theorem Takes.source_moves (h : Takes s b u) : ∃ input pc, u = { s with input := input, pc := pc } := by
  rcases h with ⟨-, ⟨-, n, rest, -, -, rfl⟩ | ⟨-, -, -, p, -, rfl⟩⟩
  · exact ⟨rest, s.pc, rfl⟩
  · exact ⟨s.input, p, rfl⟩

theorem Takes.pend_eq (h : Takes s b u) : u.pend = s.pend := by
  obtain ⟨_, _, rfl⟩ := h.source_moves
  rfl

theorem Takes.curOp_eq (h : Takes s b u) : u.curOp = s.curOp := by
  obtain ⟨_, _, rfl⟩ := h.source_moves
  rfl

theorem Takes.cells_eq (h : Takes s b u) : u.cells = s.cells := by
  obtain ⟨_, _, rfl⟩ := h.source_moves
  rfl

theorem Takes.step_eq_feed (h : Takes s b u) : step s = feed b u := by
  rcases h with ⟨hr, ⟨hd, n, rest, hi, rfl, rfl⟩ | ⟨hd, hpc, rfl, p, hp, rfl⟩⟩
  · rw [step_of_idle hr hd, topLevelStep, hi]
  · obtain rfl : p = countUp s.pc := Fin.ext (hp.trans (countUp_val _ hpc).symm)
    rw [step_of_depth_pos hr hd, procedureStep, if_neg (Nat.ne_of_lt hpc)]

end

/-- `f` neither changes where the next value comes from nor depends on it. -/
structure LeavesSource (f : State → State) : Prop where
  rst : ∀ s, (f s).rst = s.rst
  depth : ∀ s, (f s).depth = s.depth
  input : ∀ s, (f s).input = s.input
  pc : ∀ s, (f s).pc = s.pc
  code : ∀ s, (f s).code = s.code
  commutes : ∀ s input pc, f { s with input := input, pc := pc } = { f s with input := input, pc := pc }

/-- The same value is taken after `f` as before it. -/
theorem LeavesSource.takes {f : State → State} (hf : LeavesSource f) {s u : State} {b : Byte} (h : Takes s b u) :
    Takes (f s) b (f u) := by
  rcases h with ⟨hr, ⟨hd, n, rest, hi, hb, rfl⟩ | ⟨hd, hpc, hb, p, hp, rfl⟩⟩
  · refine ⟨(hf.rst s).trans hr, .inl ⟨(hf.depth s).trans hd, n, rest, (hf.input s).trans hi, hb, ?_⟩⟩
    simpa only [hf.pc] using hf.commutes s rest s.pc
  · rw [← hf.pc s] at hpc hp
    refine ⟨(hf.rst s).trans hr, .inr ⟨hd.trans_eq (hf.depth s).symm, hpc, ?_, p, hp, ?_⟩⟩
    · rw [csFetch, hf.code, hf.pc]; exact hb
    · simpa only [hf.input] using hf.commutes s s.input p

theorem openPush_leavesSource : LeavesSource openPush where
  rst _ := rfl
  depth _ := rfl
  input _ := rfl
  pc _ := rfl
  code _ := rfl
  commutes _ _ _ := rfl

theorem openDefine_leavesSource : LeavesSource openDefine where
  rst := openDefine_rst
  depth := openDefine_depth
  input := openDefine_input
  pc := openDefine_pc
  code := openDefine_code
  commutes s input pc := by
    by_cases hempty : s.sp.val = 0
    · simp [openDefine, stackPop, acceptOpcode, hempty]
    · simp [openDefine, stackPop, acceptOpcode, hempty, State.cell]

/-- The size is the cell on top when the opcode is taken (30_encoding.md R91). -/
theorem Takes.openDefine_pend_eq {s u : State} {b : Byte} (h : Takes s b u) : (openDefine u).pend = (stackPop s).1 := by
  obtain ⟨input, pc, rfl⟩ := h.source_moves
  rw [openDefine_leavesSource.commutes]
  exact openDefine_pend s

theorem collectOperand_leavesSource (b : Byte) : LeavesSource (collectOperand b) where
  rst := collectOperand_rst b
  depth := collectOperand_depth b
  input := collectOperand_input b
  pc := collectOperand_pc b
  code := collectOperand_code b
  commutes s input pc := by
    by_cases hfull : s.sp.val = Config.stackCap
    · simp [collectOperand, stackPush, hfull, raise]
    · simp [collectOperand, stackPush, hfull]

/-! ### The values the next steps take -/

/-- The source of `s` holds the values `bs` next, and `u` is `s` with all of them taken. -/
inductive Delivers : State → List Byte → State → Prop
  | nil (s : State) : Delivers s [] s
  | cons {s u v : State} {b : Byte} {bs : List Byte} : Takes s b u → Delivers u bs v → Delivers s (b :: bs) v

theorem Delivers.takes {s u : State} {b : Byte} (h : Delivers s [b] u) : Takes s b u := by
  cases h with | cons htake hnil =>
  cases hnil
  exact htake

theorem LeavesSource.delivers {f : State → State} (hf : LeavesSource f) {s u : State} {bs : List Byte}
    (h : Delivers s bs u) : Delivers (f s) bs (f u) := by
  induction h with
  | nil s => exact .nil (f s)
  | cons ht _ ih => exact .cons (hf.takes ht) ih

theorem Delivers.pend_eq {s u : State} {bs : List Byte} (h : Delivers s bs u) : u.pend = s.pend := by
  induction h with
  | nil => rfl
  | cons ht _ ih => exact ih.trans ht.pend_eq

/-- At top level: the input symbols, zero-extended. -/
theorem delivers_input {s : State} {rest : List Nibble} (symbols : List Nibble) (hr : s.rst = false) (hd : s.depth = 0)
    (hi : s.input = symbols ++ rest) : Delivers s (symbols.map zext8) { s with input := rest } := by
  induction symbols generalizing s with
  | nil => obtain rfl : s.input = rest := hi; exact .nil s
  | cons n symbols ih =>
    have htake : Takes s (zext8 n) { s with input := symbols ++ rest } := ⟨hr, .inl ⟨hd, n, _, hi, rfl, rfl⟩⟩
    exact .cons htake (ih hr hd rfl)

theorem codeFrom_of_lt (s : State) {a : Nat} (h : a < 256) : codeFrom s a = csFetch a s :: codeFrom s (a + 1) := by
  obtain ⟨n, hn⟩ : ∃ n, 256 - a = n + 1 := ⟨255 - a, by omega⟩
  have hn' : 256 - (a + 1) = n := by omega
  rw [codeFrom, codeFrom, hn, hn', List.range_succ_eq_map, List.map_cons, List.map_map]
  simp only [Nat.add_zero, Function.comp_def, Nat.succ_eq_add_one, Nat.add_assoc, Nat.add_comm 1]

/-- Inside a procedure: the code bytes from `pc` on. -/
theorem delivers_code {s : State} {rest : List Byte} (bs : List Byte) (hr : s.rst = false) (hd : 0 < s.depth)
    (hc : codeFrom s s.pc.val = bs ++ rest) :
    ∃ p : Count, p.val = 256 - rest.length ∧ Delivers s bs { s with pc := p } := by
  have hlen : 256 - s.pc.val = bs.length + rest.length := by simpa [codeFrom] using congrArg List.length hc
  have hle : s.pc.val ≤ 256 := Nat.le_of_lt_succ s.pc.isLt
  induction bs generalizing s with
  | nil => exact ⟨s.pc, by rw [List.length_nil] at hlen; omega, .nil s⟩
  | cons b bs ih =>
    rw [List.length_cons] at hlen
    have hpc : s.pc.val < 256 := by omega
    have hup := countUp_val _ hpc
    rw [codeFrom_of_lt s hpc, List.cons_append, List.cons.injEq] at hc
    obtain ⟨hb, hbs⟩ := hc
    have htake : Takes s b { s with pc := countUp s.pc } := ⟨hr, .inr ⟨hd, hpc, hb.symm, countUp s.pc, hup, rfl⟩⟩
    obtain ⟨p, hp, hrest⟩ := ih (s := { s with pc := countUp s.pc }) hr hd (by rw [← hbs, ← hup]; rfl)
      (by simp only [hup]; omega) (by simp only [hup]; omega)
    exact ⟨p, hp, .cons htake hrest⟩

/-! ### The steps that take an instruction -/

theorem collectBody_cons (b : Byte) (body : List Byte) (s : State) :
    collectBody (b :: body) s =
      if s.pend = 1#8 then defineCommit (collectOperand b s) else collectBody body (collectOperand b s) := by
  rw [collectBody]
  simp only [collectOperand_pend_eq_zero]

/-- The steps that take the body of a `define` collect it, and the last one commits. -/
theorem run_collects_body {s v : State} {body : List Byte} (h : Delivers s body v) (hop : s.curOp = 3#4)
    (hp : s.pend ≠ 0#8) (hlen : body.length = s.pend.toNat) :
    Host.Core.run Sys2Proof.core body.length s = .next (collectBody body v) := by
  induction body generalizing s v with
  | nil => exact absurd (BitVec.eq_of_toNat_eq hlen.symm) hp
  | cons b body ih =>
    cases h with | @cons _ u _ _ _ htake hrest =>
    have hup := htake.pend_eq
    have huop := htake.curOp_eq.trans hop
    have hvp : v.pend = s.pend := hrest.pend_eq.trans hup
    rw [List.length_cons] at hlen ⊢
    rw [collectBody_cons, hvp]
    by_cases hlast : s.pend = 1#8
    · obtain rfl : body = [] := List.eq_nil_of_length_eq_zero (by simpa [hlast] using hlen)
      cases hrest
      have hstep : step s = .next (defineCommit (collectOperand b v)) := by
        rw [htake.step_eq_feed, feed_last_operand b (hup.trans hlast), huop, dispatch_define]
      rw [if_pos hlast, List.length_nil, run_one hstep]
    · have hstep : step s = .next (collectOperand b u) := by
        rw [htake.step_eq_feed, feed_operand_of_more b (hup ▸ hp) (hup ▸ hlast)]
      have hpend : (collectOperand b u).pend = s.pend - 1#8 := by rw [collectOperand_pend, hup]
      rw [if_neg hlast, run_next _ hstep]
      refine ih ((collectOperand_leavesSource b).delivers hrest) (by rw [collectOperand_curOp, huop]) ?_ ?_
      · rw [hpend]; bv_omega
      · rw [hpend]; bv_omega

section
variable {s v : State}

theorem run_formatZ {op : Nibble} {i : Instr} (hf : formatOf op = .z i) (hp : s.pend = 0#8)
    (h : Delivers s [zext8 op] v) :
    Host.Core.run Sys2Proof.core 1 s = exec i v := by
  obtain ⟨t, ht, -, -⟩ := exec_next i v
  have hstep : step s = .next t := by
    rw [h.takes.step_eq_feed, feed_formatZ (h.pend_eq.trans hp) hf, ht]
  exact (run_one hstep).trans ht.symm

theorem run_push (imm : Byte) (hp : s.pend = 0#8) (h : Delivers s [zext8 1#4, imm] v) :
    Host.Core.run Sys2Proof.core 2 s = exec (.push imm) v := by
  cases h with | @cons _ u _ _ _ htake hrest =>
  have hopen : step s = .next (openPush u) := by rw [htake.step_eq_feed, feed_push (htake.pend_eq.trans hp)]
  have htake' : Takes (openPush u) imm (openPush v) := (openPush_leavesSource.delivers hrest).takes
  have hpush : step (openPush u) = .next (collectOperand imm (openPush v)) := by
    rw [htake'.step_eq_feed, feed_last_operand imm (openPush_pend v), openPush_curOp, dispatch_push]
  exact (run_next 1 hopen).trans (run_one hpush)

theorem run_define (body : List Byte) (hp : s.pend = 0#8) (h : Delivers s (zext8 3#4 :: body) v)
    (hlen : body.length = (stackPop s).1.toNat) :
    Host.Core.run Sys2Proof.core (1 + body.length) s = exec (.define body) v := by
  cases h with | @cons _ u _ _ _ htake hrest =>
  have hbody : Delivers (openDefine u) body (openDefine v) := openDefine_leavesSource.delivers hrest
  have hsize : (openDefine u).pend = (stackPop s).1 := htake.openDefine_pend_eq
  have hfeed := htake.step_eq_feed.trans (feed_define (htake.pend_eq.trans hp))
  rw [exec_define, hbody.pend_eq]
  by_cases hempty : (openDefine u).pend = 0#8
  · obtain rfl : body = [] := List.eq_nil_of_length_eq_zero (by rw [hlen, ← hsize, hempty]; rfl)
    cases hrest
    rw [if_pos hempty] at hfeed ⊢
    exact run_one hfeed
  · rw [if_neg hempty] at hfeed ⊢
    rw [Nat.add_comm, run_next _ hfeed]
    exact run_collects_body hbody (openDefine_curOp u) hempty (by rw [hsize, hlen])

/-- The simulation: the steps that take the values of an instruction do what `exec` does to the state in which they
are all taken. -/
theorem run_instruction {i : Instr} (hp : s.pend = 0#8) (h : Delivers s (zext8 (opcodeOf i) :: inlineOperands i) v)
    (hlen : ∀ body, i = .define body → body.length = (stackPop s).1.toNat) :
    Host.Core.run Sys2Proof.core (1 + (inlineOperands i).length) s = exec i v := by
  have hf := formatOf_opcodeOf i
  cases i with
  | push imm => exact run_push imm hp h
  | define body => exact run_define body hp h (hlen body rfl)
  | _ => exact run_formatZ hf hp h

end

/-- Settles O38: the fed values of a well-formed instruction are its opcode and its inline operands. -/
theorem instructionAtTopLevel : Obligations.InstructionAtTopLevel := by
  intro i s rest hwf hr hd hp hi hlen
  have h : Delivers s (fedBytes i) { s with input := rest } := delivers_input (encode i) hr hd hi
  rw [fedBytes_of_wellFormed hwf] at h
  have hcount : (encode i).length = 1 + (inlineOperands i).length := by
    rw [encode, List.length_cons, List.length_map, Nat.add_comm]
  rw [hcount]
  exact run_instruction hp h hlen

/-- Settles O39: the code bytes that decode to an instruction begin with its opcode and its inline operands. -/
theorem instructionInProcedure : Obligations.InstructionInProcedure := by
  intro i s rest hr hd hp hdec
  obtain ⟨hcode, hlen⟩ := decode_eq_instr_iff.1 hdec
  obtain ⟨p, hpc, h⟩ := delivers_code (zext8 (opcodeOf i) :: inlineOperands i) hr hd hcode
  exact ⟨p, hpc, run_instruction hp h hlen⟩

/-! ### What one value does, and the instructions that only the decoder runs (R103 to R107) -/

/-- Settles O11: `push` is its operand collected once the wait for it is open. -/
theorem pushResult : Obligations.PushResult := by
  intro imm s
  have hpend : (openPush s).pend - 1#8 = 0#8 := BitVec.sub_self 1#8
  refine ⟨_, exec_push imm s, fun hroom => ⟨?_, ?_⟩, fun hfull => ?_, stackPush_read imm (openPush s)⟩
  · exact collectOperand_cells_of_room imm (s := openPush s) hroom
  · rw [collectOperand_of_room imm (s := openPush s) hroom, hpend]; rfl
  · rw [collectOperand_of_full imm (s := openPush s) hfull, hpend]; rfl

/-- Settles O50: such a value is collected, and no dispatch runs. -/
theorem collectingChangesOnlyTheStack : Obligations.CollectingChangesOnlyTheStack := by
  intro s b hp hmore
  refine ⟨_, feed_operand_of_more b hp hmore, ?_, fun c => collectOperand_hasFault b⟩
  apply State.ext <;> simp

/-- Settles O4: no opcode, and an operand like any other. -/
theorem valuesAboveFifteen : Obligations.ValuesAboveFifteen := fun b _ hb =>
  ⟨fun hp => feed_of_sixteen_le hp hb, fun hp hroom => ⟨collectOperand_cells_of_room b hroom, feed_operand b hp⟩⟩

/-- Settles O10: `page2` has format Z, so what follows it is left to be decoded. -/
theorem noEffectInstructions : Obligations.NoEffectInstructions := by
  refine fun s => ⟨exec_noop s, exec_rsv12 s, exec_rsv13 s, exec_rsv14 s, exec_page2 s, fun rest => ?_⟩
  exact (decode_formatZ (op := 15#4) (j := .page2) rfl).2 ⟨rfl, rfl⟩

/-- Settles O37: `cur_op` says which dispatch the last operand runs. -/
theorem operandIsCollected : Obligations.OperandIsCollected := by
  intro s b hp
  refine ⟨collectOperand b s, ?_, feed_operand_of_more b hp, fun hlast hop => ?_, fun hlast hop => ?_⟩
  · rw [collectOperand, stackPush_pend]
  · rw [feed_last_operand b hlast, hop, dispatch_push]
  · rw [feed_last_operand b hlast, hop, dispatch_define]

section
variable {s u : State} {b : Byte}

/-- A value that is an instruction by itself, and not the empty `define`, is an opcode of format Z. -/
theorem formatZ_of_decode_single {i : Instr} (h : decode 0 [b] = .instr i []) (hb : b ≠ 3#8) :
    ∃ op, b = zext8 op ∧ formatOf op = .z i := by
  obtain ⟨op, tail, hbytes⟩ := decode_begins_with_opcode h
  obtain ⟨rfl, rfl⟩ := List.cons.inj hbytes
  refine ⟨op, rfl, ?_⟩
  cases hf : formatOf op with
  | z j => obtain ⟨rfl, -⟩ := (decode_formatZ hf).1 h; rfl
  | p => obtain ⟨imm, -, hnil⟩ := (decode_formatP hf).1 h; cases hnil
  | d => obtain rfl := formatOf_eq_d hf; exact absurd rfl hb

/-- An opcode of format Z is taken: the step is the whole instruction. -/
theorem Takes.step_formatZ {op : Nibble} {i : Instr} (h : Takes s (zext8 op) u) (hp : s.pend = 0#8)
    (hf : formatOf op = .z i) :
    step s = exec i u ∧ ∃ t, step s = .next t ∧ t.pend = 0#8 := by
  have hpu := h.pend_eq.trans hp
  have hstep : step s = exec i u := h.step_eq_feed.trans (feed_formatZ hpu hf)
  obtain ⟨t, ht, -, -⟩ := exec_next i u
  exact ⟨hstep, t, hstep.trans ht, formatZ_awaits_opcode hf hpu ht⟩

/-- The opcode of `define` is taken: the size is popped and latched, and a size of 0 commits at once. -/
theorem Takes.step_define {base : List Byte} {n : Byte} (h : Takes s 3#8 u) (hp : s.pend = 0#8)
    (hpop : PopsTo s.cells base n) :
    ∃ t, t.cells = base ∧ t = { u with sp := t.sp, curOp := 3#4, defN := n, pend := n } ∧
      (step s = if n = 0#8 then .next (defineCommit t) else .next t) ∧ (n = 0#8 → (defineCommit t).pend = 0#8) := by
  rw [← h.cells_eq] at hpop
  obtain ⟨t, ht, hcells, hframe⟩ := openDefine_of_popsTo hpop
  have hpend : t.pend = n := by rw [hframe]
  refine ⟨t, hcells, hframe, ?_, fun hn => by rw [defineCommit_pend, hpend, hn]⟩
  rw [h.step_eq_feed, ← hpend, ← ht]
  exact feed_define (h.pend_eq.trans hp)

end

/-- Settles O36: one rule of `Feed` a clause. -/
theorem stepRunsDecodedInstruction : Obligations.StepRunsDecodedInstruction := by
  intro s u b h hp
  have hpu := h.pend_eq.trans hp
  refine ⟨fun hb => ?_, fun i hdec hb => ?_, fun hb => ?_, fun hb base n hpop => ?_⟩
  · rw [h.step_eq_feed, feed_of_sixteen_le hpu hb]
  · obtain ⟨op, rfl, hf⟩ := formatZ_of_decode_single hdec hb
    exact h.step_formatZ hp hf
  · subst hb
    exact h.step_eq_feed.trans (feed_push hpu)
  · subst hb
    exact h.step_define hp hpop

end Sys2Proof.Machine

/-! PROOFS. Arithmetic (41_arith.md). `add` and `sub` are one shape: `cur_op` is written, two cells are popped, and one cell
is pushed, which always finds room. What the shape does is said once, for any pushed value; R120 and R121 then differ only in
that value. -/

namespace Sys2Proof.Machine

open Sys2Proof

/-! ### Two pops and a push -/

theorem popTwo_sp_val (s : State) : (popTwo s).2.2.sp.val = s.sp.val - 2 := by
  have hfirst := stackPop_sp_val s
  have hsecond := stackPop_sp_val (stackPop s).2
  show (stackPop (stackPop s).2).2.sp.val = s.sp.val - 2
  omega

/-- The push after two pops cannot meet a full stack (R120 d, R121 e). -/
theorem popTwo_leaves_room (s : State) : (popTwo s).2.2.sp.val < 256 := by
  have hsp := popTwo_sp_val s
  have hle := s.sp.isLt
  omega

/-- The cells after the push: what the two pops left, and the pushed value, which may depend on what they answered. -/
theorem stackPush_popTwo_cells {s : State} {mid base : List Byte} {a b : Byte} (op : Nibble) (f : Byte → Byte → Byte)
    (ha : PopsTo s.cells mid a) (hb : PopsTo mid base b) :
    (stackPush (f (popTwo (acceptOpcode op s)).1 (popTwo (acceptOpcode op s)).2.1)
      (popTwo (acceptOpcode op s)).2.2).cells = base ++ [f a b] := by
  obtain ⟨u, hpop, -, hcells⟩ := popTwo_accept op ha hb
  rw [stackPush_cells_of_room _ (popTwo_leaves_room _), hpop, hcells]

/-- No flag, no fault bit, no event (R122): the stack, its count and `cur_op` are all that is written. -/
theorem stackPush_popTwo_frame (op : Nibble) (v : Byte) (s : State) :
    stackPush v (popTwo (acceptOpcode op s)).2.2 =
      { s with
        stack := (stackPush v (popTwo (acceptOpcode op s)).2.2).stack
        sp := (stackPush v (popTwo (acceptOpcode op s)).2.2).sp
        curOp := op } := by
  have hfault := stackPush_fault_of_room v _ (popTwo_leaves_room (acceptOpcode op s))
  apply State.ext <;> simp [hfault]

/-- Pops write no cell, and the push writes only the one at the count they left. -/
theorem stackPush_popTwo_read (op : Nibble) (v : Byte) (s : State) (j : Nat)
    (hj : j ≠ (popTwo (acceptOpcode op s)).2.2.sp.val) :
    (stackPush v (popTwo (acceptOpcode op s)).2.2).stack.read j = s.stack.read j := by
  rw [stackPush_read v _ j hj, popTwo_stack, acceptOpcode_stack]

/-! ### The two values, as numbers modulo 256 (R122) -/

theorem byte_add_eq_ofNat_mod (a b : Byte) : a + b = BitVec.ofNat 8 ((a.toNat + b.toNat) % 256) := by
  apply BitVec.eq_of_toNat_eq
  rw [BitVec.toNat_add, BitVec.toNat_ofNat, Nat.mod_mod]

theorem byte_sub_eq_ofInt_mod (y x : Byte) : y - x = BitVec.ofInt 8 (((y.toNat : Int) - x.toNat) % 256) := by
  apply BitVec.eq_of_toNat_eq
  have hx := x.isLt
  rw [BitVec.toNat_sub, BitVec.toNat_ofInt]
  omega

/-- Settles O12. -/
theorem addResult : Obligations.AddResult := by
  intro s
  refine ⟨_, exec_add s, fun mid base a b ha hb => ?_, stackPush_popTwo_frame _ _ s, stackPush_popTwo_read _ _ s⟩
  rw [← byte_add_eq_ofNat_mod]
  exact stackPush_popTwo_cells 0b0010#4 (fun top below => top + below) ha hb

/-- Settles O13: the first cell popped is the subtrahend. -/
theorem subResult : Obligations.SubResult := by
  intro s
  refine ⟨_, exec_sub s, fun mid base x y hx hy => ?_, stackPush_popTwo_frame _ _ s, stackPush_popTwo_read _ _ s⟩
  rw [← byte_sub_eq_ofInt_mod]
  exact stackPush_popTwo_cells 0b1010#4 (fun top below => below - top) hx hy

end Sys2Proof.Machine

/-! PROOFS. Stack manipulation (42_stack_manip.md). `del` and `copy` are said for every state first (R130, R131); a word of R132
is then a `push` of its offset and one of the two, for a cell named by how many cells stand above it. -/

namespace Sys2Proof.Machine

open Sys2Proof

/-! ### `del` and `copy` -/

/-- Settles O14: after the pop it is `stackRemoveAt`, whose cells and places are those of O8. -/
theorem delResult : Obligations.DelResult := by
  intro s
  refine ⟨_, exec_del s, fun base off hpop => ?_, ?_, fun j hj => ?_⟩
  · obtain ⟨u, hu, -, rfl⟩ := stackPop_accept 0b1000#4 hpop
    rw [hu, stackRemoveAt_cells, removeIndex, cells_length]
  · apply State.ext <;> simp
  · rw [stackRemoveAt_read, if_neg (by omega), stackPop_stack, acceptOpcode_stack]

/-- The push of `copy` cannot meet a full stack: an empty one stays empty under the pop, another loses a cell (R131 e). -/
theorem stackPop_leaves_room (s : State) : (stackPop s).2.sp.val < 256 := by
  have hsp := stackPop_sp_val s
  have hle := s.sp.isLt
  omega

/-- Settles O15: the pushed cell is the one `stackPeek` answers (O7), and the pop has left room for it. -/
theorem copyResult : Obligations.CopyResult := by
  intro s
  have hroom := stackPop_leaves_room (acceptOpcode 0b1001#4 s)
  refine ⟨_, exec_copy s, fun base off hpop => ?_, ?_, fun j hj => ?_⟩
  · rw [stackPush_cells_of_room _ hroom, stackPeekReadsOffset]
    obtain ⟨u, hu, -, rfl⟩ := stackPop_accept 0b1001#4 hpop
    rw [hu]
  · apply State.ext <;> simp [stackPush_fault_of_room _ _ hroom]
  · rw [stackPush_read _ _ j hj, stackPop_stack, acceptOpcode_stack]

/-! ### The words of R132 -/

/-- The instructions run one after another, as the words of R132 are. -/
def execAll (program : List Instr) (s : State) : Host.Outcome State Fault Refusal :=
  program.foldl (fun o i => match o with | .next u => exec i u | o => o) (.next s)

theorem execAll_append {first : List Instr} {s u : State} (h : execAll first s = .next u) (second : List Instr) :
    execAll (first ++ second) s = execAll second u := by
  rw [execAll, List.foldl_append, ← execAll, h, ← execAll]

theorem zext8_toNat (k : Nibble) : (zext8 k).toNat = k.toNat := BitVec.toNat_setWidth_of_le (by decide)

section
variable {s : State} {below above : List Byte} {c : Byte} {k : Nibble}

/-- The instruction after a push finds the pushed cell on top, above the cells the word began with. -/
theorem exec_push_popsTo (b : Byte) (hroom : s.sp.val < 256) :
    ∃ u, exec (.push b) s = .next u ∧ PopsTo u.cells s.cells b := by
  obtain ⟨u, hpush, hcells, -⟩ := pushResult b s
  exact ⟨u, hpush, .inl (hcells hroom).1⟩

/-- `copy k` with `k` cells above the one to copy. -/
theorem execAll_pseudoCopy (hroom : s.sp.val < 256) (h : s.cells = below ++ c :: above) (hk : above.length = k.toNat) :
    ∃ t, execAll (pseudoCopy k) s = .next t ∧ t.cells = below ++ c :: above ++ [c] := by
  obtain ⟨u, hpush, hpop⟩ := exec_push_popsTo (zext8 k) hroom
  obtain ⟨t, hcopy, hcells, -⟩ := copyResult u
  refine ⟨t, ?_, ?_⟩
  · simp only [execAll, pseudoCopy, List.foldl, hpush, hcopy]
  · simp [hcells _ _ hpop, h, zext8_toNat, ← hk]

/-- `del k` with `k` cells above the one to delete. -/
theorem execAll_pseudoDel (hroom : s.sp.val < 256) (h : s.cells = below ++ c :: above) (hk : above.length = k.toNat) :
    ∃ t, execAll (pseudoDel k) s = .next t ∧ t.cells = below ++ above := by
  obtain ⟨u, hpush, hpop⟩ := exec_push_popsTo (zext8 k) hroom
  obtain ⟨t, hdel, hcells, -⟩ := delResult u
  refine ⟨t, ?_, ?_⟩
  · simp only [execAll, pseudoDel, List.foldl, hpush, hdel]
  · have hindex : s.cells.length - 1 - min (zext8 k).toNat (s.cells.length - 1) = below.length := by
      simp [h, zext8_toNat, ← hk]
    rw [hcells _ _ hpop, hindex, h, List.eraseIdx_append_of_length_le (le_refl _), Nat.sub_self, List.eraseIdx_cons_zero]

end

/-- Settles O31: each word copies or deletes a cell with 0, 1 or 2 cells above it; `swap` copies as `over` does and deletes the original. -/
theorem stackWordsFromCopyAndDel : Obligations.StackWordsFromCopyAndDel := by
  intro s base a b hcells hsp
  have htop : s.cells = base ++ [a] ++ b :: [] := by rw [hcells, List.append_assoc]; rfl
  have hroom : s.sp.val < 256 := by omega
  obtain ⟨dup, hdup, hdupCells⟩ := execAll_pseudoCopy (k := 0#4) hroom htop rfl
  obtain ⟨drop, hdrop, hdropCells⟩ := execAll_pseudoDel (k := 0#4) hroom htop rfl
  obtain ⟨copied, hover, hoverCells⟩ := execAll_pseudoCopy (k := 1#4) hroom hcells rfl
  obtain ⟨nip, hnip, hnipCells⟩ := execAll_pseudoDel (k := 1#4) hroom hcells rfl
  have hoverCells' : copied.cells = base ++ [a, b, a] := by rw [hoverCells, List.append_assoc]; rfl
  have hroom' : copied.sp.val < 256 := by
    rw [← cells_length, hcells] at hsp
    rw [← cells_length, hoverCells']
    simp only [List.length_append, List.length_cons, List.length_nil] at hsp ⊢
    omega
  obtain ⟨swap, hswap, hswapCells⟩ := execAll_pseudoDel (k := 2#4) hroom' hoverCells' rfl
  refine ⟨⟨dup, hdup, ?_⟩, ⟨drop, hdrop, ?_⟩, ⟨copied, hover, hoverCells'⟩, ⟨nip, hnip, hnipCells⟩,
    ⟨swap, (execAll_append hover _).trans hswap, hswapCells⟩⟩
  · simp [hdupCells]
  · simp [hdropCells]

end Sys2Proof.Machine

/-! PROOFS. Output (43_output.md). Both instructions are one shape: `cur_op` is written and one display event is appended to the
trace (R142); what is left to say of each is its value, read through the cells. -/

namespace Sys2Proof.Machine

open Sys2Proof

/-- All that an instruction which only emits writes: the opcode register and the end of the trace. -/
theorem emit_acceptOpcode (e : Event) (op : Nibble) (s : State) :
    emit e (acceptOpcode op s) = { s with curOp := op, events := s.events ++ [e] } := rfl

/-- Offset 0 reads the top cell (R53): of the cells turned around, it is the first. -/
theorem stackPeek_zero (s : State) : stackPeek 0#8 s = s.cells.getLastD 0#8 := by
  have hpeek : stackPeek 0#8 s = s.cells.reverse.getD 0 0#8 := stackPeekReadsOffset 0#8 s
  rw [hpeek, List.getD_eq_getElem?_getD, ← List.head?_eq_getElem?, List.head?_reverse, List.getLastD_eq_getLast?]

/-- Settles O17: the value is the one `stackPeek` answers (O7) at offset 0. -/
theorem showResult : Obligations.ShowResult := by
  intro s
  rw [exec_showTop, emit_acceptOpcode, stackPeek_zero]

/-- Settles O16: `sp` counts the cells, and the model's clamp is the 15 of R140. -/
theorem stackcountResult : Obligations.StackcountResult := by
  intro s
  rw [exec_stackcount, emit_acceptOpcode, cells_length]

end Sys2Proof.Machine

/-! PROOFS. `define` (44_define.md). A commit is its pops and then its checks (R151): what the pops answer is read off the
cells, and what the checks do is said for every slot and body. A `define` is the commit of what the pushes of its body left. -/

namespace Sys2Proof.Machine

open Sys2Proof

/-! ### The checks of a commit (R151, R153) -/

section
variable {s : State} {body : List Byte} {slot : Byte}

theorem commitChecked_of_fits (hfits : body.length + 1 ≤ s.hp.val) (hslot : slot.toNat < 16) :
    commitChecked slot body s = storeProcedure slot body s := by
  rw [commitChecked, if_neg (Nat.not_lt.2 hfits), if_neg (Nat.not_le.2 hslot)]

/-- A rejection writes the fault register alone. -/
theorem commitChecked_of_rejected (h : s.hp.val < body.length + 1 ∨ 16 ≤ slot.toNat) :
    commitChecked slot body s = { s with fault := (commitChecked slot body s).fault } := by
  unfold commitChecked
  split
  · split <;> rfl
  · rw [if_pos (by omega)]; rfl

end

theorem storeProcedure_hasFault (slot : Byte) (body : List Byte) (s : State) (b : FaultBit) :
    (storeProcedure slot body s).hasFault b = s.hasFault b := rfl

/-- Each failing check sets its own bit, and nothing else sets one. -/
theorem commitChecked_hasFault (slot : Byte) (body : List Byte) (s : State) (b : FaultBit) :
    (commitChecked slot body s).hasFault b =
      (s.hasFault b || decide (b = .csFull ∧ s.hp.val < body.length + 1) || decide (b = .badSlot ∧ 16 ≤ slot.toNat)) := by
  by_cases hfull : s.hp.val < body.length + 1 <;> by_cases hslot : 16 ≤ slot.toNat <;>
    simp [commitChecked, hfull, hslot, raise_hasFault, storeProcedure_hasFault, eq_comm]

/-! ### The bytes a commit stores (R152) -/

section
variable {s : State} {body : List Byte}

theorem storeProcedure_reads_marker (slot : Byte) (hfits : body.length + 1 ≤ s.hp.val) :
    (storeProcedure slot body s).code.read (s.hp.val - 1) = some 4#8 := by
  obtain ⟨-, hread⟩ := storeProcedure_read slot hfits
  have hindex : s.hp.val - 1 - (s.hp.val - (body.length + 1)) = body.length := by omega
  rw [hread, if_pos (by omega), hindex, List.getElem?_concat_length]

theorem storeProcedure_reads_body (slot : Byte) (hfits : body.length + 1 ≤ s.hp.val) {k : Nat} (hk : k < body.length) :
    (storeProcedure slot body s).code.read (s.hp.val - (body.length + 1) + k) = body[k]? := by
  obtain ⟨-, hread⟩ := storeProcedure_read slot hfits
  rw [hread, if_pos (by omega), Nat.add_sub_cancel_left, List.getElem?_append_left hk]

theorem storeProcedure_reads_outside (slot : Byte) (hfits : body.length + 1 ≤ s.hp.val) {a : Nat}
    (ha : a < (storeProcedure slot body s).hp.val ∨ s.hp.val ≤ a) :
    (storeProcedure slot body s).code.read a = s.code.read a := by
  obtain ⟨hhp, hread⟩ := storeProcedure_read slot hfits
  rw [hread, if_neg (by omega)]

end

/-! ### The pops of a commit (R151) -/

/-- A commit pops `def_n` cells and then the slot, which moves `sp` alone, and makes its checks. -/
theorem defineCommit_eq (s : State) :
    defineCommit s =
      commitChecked (stackPop (popBody s.defN.toNat [] s).2).1 (popBody s.defN.toNat [] s).1
        { s with sp := (stackPop (popBody s.defN.toNat [] s).2).2.sp } := by
  have hpops : (stackPop (popBody s.defN.toNat [] s).2).2 =
      { s with sp := (stackPop (popBody s.defN.toNat [] s).2).2.sp } := by
    apply State.ext <;> simp
  rw [← hpops]; rfl

/-- The body popped is the top cells in their order, and the slot is the cell below them. -/
theorem defineCommit_of_cells {s : State} {mid base body : List Byte} {slot : Byte} (hcells : s.cells = mid ++ body)
    (hlen : body.length = s.defN.toNat) (hpop : PopsTo mid base slot) :
    ∃ u, u = { s with sp := u.sp } ∧ u.cells = base ∧ defineCommit s = commitChecked slot body u := by
  obtain ⟨hbody, rfl⟩ := popBody_cells s.defN.toNat [] s mid body hcells hlen
  obtain ⟨rfl, hslot⟩ := stackPop_of_popsTo hpop
  refine ⟨{ s with sp := (stackPop (popBody s.defN.toNat [] s).2).2.sp }, rfl, cells_congr (by simp) rfl, ?_⟩
  rw [defineCommit_eq, hbody, hslot, List.append_nil]

/-- Settles O18: the commit is `storeProcedure`, in a state whose `sp` alone the pops have moved. -/
theorem commitLaysOutBody : Obligations.CommitLaysOutBody := by
  intro s mid base body slot hcells hlen hpop hfits hslot
  obtain ⟨u, hu, hbase, hcommit⟩ := defineCommit_of_cells hcells hlen hpop
  have hhp : u.hp = s.hp := by rw [hu]
  have hcode : u.code = s.code := by rw [hu]
  have hgt : u.gt = s.gt := by rw [hu]
  simp only [← hhp, ← hcode, ← hgt] at hfits ⊢
  rw [commitChecked_of_fits hfits hslot] at hcommit
  have hentry := storeProcedure_entry slot body u
  have hentryAddr : u.hp.val - 1 - body.length = u.hp.val - (body.length + 1) := by omega
  refine ⟨_, hcommit, hbase, (storeProcedure_read slot hfits).1, storeProcedure_reads_marker slot hfits, fun k hk => ?_,
    fun a => storeProcedure_reads_outside slot hfits, ?_, fun k hk hne => ?_, ?_⟩
  · rw [hentryAddr, storeProcedure_reads_body slot hfits hk]
  · rw [hentry, if_pos rfl]
  · rw [hentry, if_neg hne]
  · rw [hu]; rfl

/-- Settles O19. -/
theorem commitRejects : Obligations.CommitRejects := by
  intro s mid base body slot hcells hlen hpop hrejected
  obtain ⟨u, hu, hbase, hcommit⟩ := defineCommit_of_cells hcells hlen hpop
  have hhp : u.hp = s.hp := by rw [hu]
  have hfault : u.hasFault = s.hasFault := by rw [hu]; rfl
  simp only [← hhp, ← hfault] at hrejected ⊢
  have hframe := commitChecked_of_rejected hrejected
  refine ⟨_, hcommit, ?_, ?_, ?_, ?_, fun b hfull hbad => ?_⟩
  · rw [hframe]; exact hbase
  · rw [hframe, hu]
  · simp [commitChecked_hasFault]
  · simp [commitChecked_hasFault]
  · simp [commitChecked_hasFault, hfull, hbad]

/-! ### The body a `define` collects (R151, R156 c) -/

/-- A body with no fewer values than the size popped is committed: with as many of them as the size, less those dropped. -/
theorem exec_define_commits {s : State} {body mid : List Byte} {size : Byte} (hpop : PopsTo s.cells mid size)
    (hlen : size.toNat ≤ body.length) :
    ∃ u, exec (.define body) s = .next (defineCommit u) ∧
      u.cells = cellsPushed mid (body.take size.toNat) ∧
      u = { s with
        stack := u.stack, sp := u.sp, fault := u.fault, curOp := 0b0011#4, pend := 0#8, defN := size } ∧
      u.fault = (if mid.length + size.toNat ≤ 256 then s.fault else (raise .stkOvf s).fault) ∧
      ∀ j, j < mid.length ∨ mid.length + size.toNat ≤ j → u.stack.read j = s.stack.read j := by
  obtain ⟨o, ho, hcells, hframe⟩ := openDefine_of_popsTo hpop
  have hsp : o.sp.val = mid.length := by rw [← hcells, cells_length]
  have hstack : o.stack = s.stack := by rw [hframe]
  have hpend : o.pend = size := by rw [hframe]
  have hfault : o.fault = s.fault := by rw [hframe]
  rw [exec_define, ho, hpend]
  by_cases hempty : size = 0#8
  · have hfits : mid.length ≤ 256 := by have := o.sp.isLt; omega
    rw [if_pos hempty]
    subst hempty
    refine ⟨o, rfl, ?_, ?_, ?_, fun j _ => by rw [hstack]⟩
    · simp [cellsPushed, hcells, Config.stackCap, List.take_of_length_le hfits]
    · rw [hframe]
    · simp [hfits, hfault]
  · rw [if_neg hempty]
    rw [← hpend] at hempty hlen
    obtain ⟨u, hcommit, hpushed, hrest, hovf, hread⟩ := collectBody_commits body o hempty hlen
    rw [hpend, hsp] at hread hovf
    refine ⟨u, by rw [hcommit], ?_, ?_, ?_, fun j hj => by rw [hread j hj, hstack]⟩
    · rw [hpushed, hcells, hpend]
    · rw [hrest, hframe]
    · rw [hovf, raise_fault, raise_fault, hfault]

/-- Settles O55. -/
theorem defineCollectsBodyThenCommits : Obligations.DefineCollectsBodyThenCommits := by
  intro s body mid size hpop hlen
  have hcommits := exec_define_commits hpop hlen.ge
  rwa [← hlen, List.take_length] at hcommits

/-- Where every push fits, the commit meets the whole body above the older cells, and no bit is set. -/
theorem exec_define_commits_of_room {s : State} {body mid : List Byte} {size : Byte} (hpop : PopsTo s.cells mid size)
    (hlen : body.length = size.toNat) (hroom : mid.length + body.length ≤ 256) :
    ∃ u, exec (.define body) s = .next (defineCommit u) ∧ u.cells = mid ++ body ∧
      u = { s with stack := u.stack, sp := u.sp, curOp := 0b0011#4, pend := 0#8, defN := size } ∧
      ∀ j, j < mid.length ∨ mid.length + body.length ≤ j → u.stack.read j = s.stack.read j := by
  obtain ⟨u, hexec, hcells, hframe, hfault, hread⟩ := defineCollectsBodyThenCommits s body mid size hpop hlen
  rw [if_pos hroom] at hfault
  rw [hfault] at hframe
  refine ⟨u, hexec, ?_, hframe, hread⟩
  rw [hcells, cellsPushed, List.take_of_length_le (by rw [List.length_append]; exact hroom)]

/-- Settles O20: the commit of O18, after pushes that all fit. -/
theorem defineStoresProcedure : Obligations.DefineStoresProcedure := by
  intro s body mid base size slot hsize hslotPop hlen hroom hfits hslot
  obtain ⟨u, hexec, hcells, hu, hread⟩ := exec_define_commits_of_room hsize hlen hroom
  have hdefN : body.length = u.defN.toNat := by rw [hu]; exact hlen
  have hhp : u.hp = s.hp := by rw [hu]
  have hcode : u.code = s.code := by rw [hu]
  have hgt : u.gt = s.gt := by rw [hu]
  simp only [← hhp, ← hcode, ← hgt] at hfits ⊢
  obtain ⟨t, hcommit, hbase, hthp, hmarker, hbody, houtside, hentry, hothers, ht⟩ :=
    commitLaysOutBody u mid base body slot hcells hdefN hslotPop hfits hslot
  have hstack : t.stack = u.stack := by rw [ht]
  refine ⟨t, by rw [hexec, hcommit], hbase, hthp, fun k hk => ?_, hmarker, houtside, hentry, hothers, ?_, fun j hj => ?_⟩
  · rw [← hbody k hk, hthp, Nat.sub_sub, Nat.add_comm 1]
  · rw [ht, hu]
  · rw [hstack, hread j hj]

/-- Settles O21: the commit of O19, after pushes that all fit. -/
theorem defineRejected : Obligations.DefineRejected := by
  intro s body mid base size slot hsize hslotPop hlen hroom hrejected
  obtain ⟨u, hexec, hcells, hu, hread⟩ := exec_define_commits_of_room hsize hlen hroom
  have hdefN : body.length = u.defN.toNat := by rw [hu]; exact hlen
  have hhp : u.hp = s.hp := by rw [hu]
  have hfault : u.hasFault = s.hasFault := by rw [hu]; rfl
  simp only [← hhp, ← hfault] at hrejected ⊢
  obtain ⟨t, hcommit, hbase, ht, hbits⟩ := commitRejects u mid base body slot hcells hdefN hslotPop hrejected
  obtain ⟨hfull, hbad, hothers⟩ := hbits
  have hstack : t.stack = u.stack := by rw [ht]
  refine ⟨t, by rw [hexec, hcommit], hbase, ?_, hfull, hbad, hothers, fun j hj => ?_⟩
  · rw [ht, hu]
  · rw [hstack, hread j hj]

/-! ### What every `define` leaves unchanged (R151, R156) -/

theorem commitChecked_cases (slot : Byte) (body : List Byte) (s : State) :
    (body.length + 1 ≤ s.hp.val ∧ commitChecked slot body s = storeProcedure slot body s) ∨
      commitChecked slot body s = { s with fault := (commitChecked slot body s).fault } := by
  by_cases h : s.hp.val < body.length + 1 ∨ 16 ≤ slot.toNat
  · exact .inr (commitChecked_of_rejected h)
  · exact .inl ⟨by omega, commitChecked_of_fits (by omega) (by omega)⟩

theorem commitChecked_entry_other {slot : Byte} (body : List Byte) (s : State) {k : Nat} (hk : k < 16)
    (hne : k ≠ slot.toNat) : (commitChecked slot body s).gt[k] = s.gt[k] := by
  rcases commitChecked_cases slot body s with ⟨-, h⟩ | h
  · rw [h, storeProcedure_entry, if_neg hne]
  · rw [h]

/-- What holds from the end of the decode phase to whatever a `define` leaves, whether it has committed or goes on waiting. -/
structure DefineKeeps (s t : State) : Prop where
  frame : t = { s with
    stack := t.stack, sp := t.sp, code := t.code, hp := t.hp, gt := t.gt, fault := t.fault, pend := t.pend }
  hp_le : t.hp.val ≤ s.hp.val
  code : ∀ a, a < t.hp.val ∨ s.hp.val ≤ a → t.code.read a = s.code.read a
  unmoved : t.hp = s.hp → t.code = s.code ∧ t.gt = s.gt
  entry : ∀ k (hk : k < 16), t.gt[k] = s.gt[k] ∨ t.gt[k] = ⟨true, BitVec.ofNat 8 t.hp.val⟩
  faults : ∀ b, b ≠ .stkOvf → b ≠ .csFull → b ≠ .badSlot → t.hasFault b = s.hasFault b
  stack : ∀ j, j < s.sp.val → t.stack.read j = s.stack.read j

/-- It is enough that the code store and the table are not written. -/
theorem defineKeeps_of_unstored {s t : State}
    (hframe : t = { s with stack := t.stack, sp := t.sp, fault := t.fault, pend := t.pend })
    (hfaults : ∀ b, b ≠ .stkOvf → b ≠ .csFull → b ≠ .badSlot → t.hasFault b = s.hasFault b)
    (hstack : ∀ j, j < s.sp.val → t.stack.read j = s.stack.read j) : DefineKeeps s t where
  frame := by rw [hframe]
  hp_le := by rw [hframe]
  code a _ := by rw [hframe]
  unmoved _ := by rw [hframe]; exact ⟨rfl, rfl⟩
  entry k hk := .inl (by rw [hframe])
  faults := hfaults
  stack := hstack

theorem commitChecked_keeps (slot : Byte) (body : List Byte) (s : State) : DefineKeeps s (commitChecked slot body s) := by
  have hfaults : ∀ b, b ≠ .stkOvf → b ≠ .csFull → b ≠ .badSlot → (commitChecked slot body s).hasFault b = s.hasFault b :=
    fun b _ hfull hbad => by simp [commitChecked_hasFault, hfull, hbad]
  rcases commitChecked_cases slot body s with ⟨hfits, hstore⟩ | hreject
  · rw [hstore] at hfaults ⊢
    obtain ⟨hhp, -⟩ := storeProcedure_read slot hfits
    exact {
      frame := rfl
      hp_le := by omega
      code := fun a ha => storeProcedure_reads_outside slot hfits ha
      unmoved := fun h => absurd (congrArg Fin.val h) (by omega)
      entry := fun k hk => by rw [storeProcedure_entry]; split <;> simp
      faults := hfaults
      stack := fun _ _ => rfl }
  · exact defineKeeps_of_unstored (by rw [hreject]) hfaults fun j _ => by rw [commitChecked_stack]

theorem defineCommit_keeps (s : State) : DefineKeeps s (defineCommit s) := by
  rw [defineCommit_eq]
  exact { commitChecked_keeps _ _ _ with stack := fun j _ => by rw [commitChecked_stack] }

theorem collectOperand_keeps (b : Byte) (s : State) : DefineKeeps s (collectOperand b s) :=
  defineKeeps_of_unstored (by rw [collectOperand_eq]) (fun _ h _ _ => collectOperand_hasFault b h)
    fun j hj => stackPush_read b s j (Nat.ne_of_lt hj)

/-- A value collected before is one of the pushes that may be dropped, and no more. -/
theorem DefineKeeps.of_collectOperand {b : Byte} {s t : State} (h : DefineKeeps (collectOperand b s) t) :
    DefineKeeps s t := by
  have hb := collectOperand_keeps b s
  have hsp : s.sp.val ≤ (collectOperand b s).sp.val := stackPush_sp_le b s
  obtain ⟨hframe, hle, hcode, hunmoved, hentry, hfaults, hstack⟩ := h
  simp only [collectOperand_hp, collectOperand_code, collectOperand_gt] at hle hcode hunmoved hentry
  exact {
    frame := by rw [hframe, hb.frame]
    hp_le := hle
    code := hcode
    unmoved := hunmoved
    entry := hentry
    faults := fun c h₁ h₂ h₃ => (hfaults c h₁ h₂ h₃).trans (hb.faults c h₁ h₂ h₃)
    stack := fun j hj => (hstack j (hj.trans_le hsp)).trans (hb.stack j hj) }

theorem collectBody_keeps (body : List Byte) (s : State) : DefineKeeps s (collectBody body s) := by
  induction body generalizing s with
  | nil => exact defineKeeps_of_unstored rfl (fun _ _ _ _ => rfl) fun _ _ => rfl
  | cons b body ih =>
    simp only [collectBody]
    split
    · exact (defineCommit_keeps _).of_collectOperand
    · exact (ih _).of_collectOperand

theorem exec_define_keeps (body : List Byte) (s : State) :
    ∃ t, exec (.define body) s = .next t ∧ DefineKeeps (openDefine s) t := by
  refine ⟨_, exec_define body s, ?_⟩
  split
  · exact defineCommit_keeps _
  · exact collectBody_keeps body _

/-- Only the slot popped after the body can be assigned. -/
theorem exec_define_entry_other {s t : State} {body mid below stored base : List Byte} {size slot : Byte}
    (ht : exec (.define body) s = .next t) (hsize : PopsTo s.cells mid size) (hlen : size.toNat ≤ body.length)
    (hpushed : cellsPushed mid (body.take size.toNat) = below ++ stored) (hstored : stored.length = size.toNat)
    (hslot : PopsTo below base slot) {k : Nat} (hk : k < 16) (hne : k ≠ slot.toNat) : t.gt[k] = s.gt[k] := by
  obtain ⟨u, hexec, hcells, hu, -⟩ := exec_define_commits hsize hlen
  have hdefN : stored.length = u.defN.toNat := by rw [hu]; exact hstored
  obtain ⟨v, hv, -, hcommit⟩ := defineCommit_of_cells (hcells.trans hpushed) hdefN hslot
  have hgt : v.gt = s.gt := by rw [hv, hu]
  rw [next_unique ht hexec, hcommit]
  simp only [commitChecked_entry_other stored v hk hne, hgt]

/-- A body that ends before the size popped stores nothing. -/
theorem exec_define_hp_of_short {s t : State} {body mid : List Byte} {size : Byte} (ht : exec (.define body) s = .next t)
    (hsize : PopsTo s.cells mid size) (hshort : body.length < size.toNat) : t.hp = s.hp := by
  obtain ⟨o, ho, -, hframe⟩ := openDefine_of_popsTo hsize
  have hpend : o.pend = size := by rw [hframe]
  have hne : size ≠ 0#8 := by rintro rfl; exact Nat.not_lt_zero _ hshort
  rw [exec_define, ho, hpend, if_neg hne] at ht
  rw [← hpend] at hshort
  rw [← Host.Outcome.next.inj ht, (collectBody_waits body o hshort).1, hframe]

/-- Settles O22: what holds of every `define` is `DefineKeeps`; the slot and the short body are read off the cells. -/
theorem defineFrame : Obligations.DefineFrame := by
  intro s body
  obtain ⟨t, ht, hframe, hle, hcode, hunmoved, hentry, hfaults, hstack⟩ := exec_define_keeps body s
  have hbits : (openDefine s).hasFault = s.hasFault := by funext b; simp [State.hasFault]
  simp only [openDefine_hp, openDefine_code, openDefine_gt, openDefine_stack, hbits]
    at hle hcode hunmoved hentry hfaults hstack
  refine ⟨t, ht, ?_, hle, hcode, hunmoved, hentry, ?_, fun _ _ => exec_define_hp_of_short ht, hfaults, hstack⟩
  · rw [hframe]
    apply State.ext <;> simp
  · intro mid below stored base size slot hsize hlen hpushed hstored hslot k hk hne
    exact exec_define_entry_other ht hsize hlen hpushed hstored hslot hk hne

end Sys2Proof.Machine

/-! PROOFS. Control flow (45_control_flow.md). `call` and a taken `jnz` are one shape: their pops, which the cells describe, and
then `Enter`, whose outcomes are told apart by the slot and the room. That the core comes back to top level (R181) is a count of
the fetches that the procedures entered have left, one of a caller weighing more than all of a procedure it can enter. -/

namespace Sys2Proof.Machine

open Sys2Proof

/-! ### The step -/

/-- Settles O34: taking the value is all that the step adds to `Feed`. -/
theorem stepFeedsOneSymbol : Obligations.StepFeedsOneSymbol := by
  refine ⟨fun _ _ _ h => h.step_eq_feed, fun s hr hd hpc => ?_⟩
  rw [step_of_depth_pos hr hd, procedureStep, if_pos hpc]

/-! ### `ret` -/

theorem terminate_of_idle {s : State} (hd : s.depth = 0) : terminate s = s := by rw [terminate, hd, unwind]

/-- Settles O23: at top level the terminate flag is swallowed. -/
theorem retAtTopLevel : Obligations.RetAtTopLevel := by
  intro s hd
  rw [exec_ret, terminate_of_idle (s := acceptOpcode 4#4 s) hd]
  rfl

/-- A cascade across `n` tail frames ends with the call frame below them. -/
theorem terminate_of_callFrame {s : State} {c n : Nat} (hd : s.depth = c + 1 + n)
    (htails : ∀ k, c < k → k < s.depth → (s.frame k).tail = true) (hcall : (s.frame c).tail = false) :
    terminate s = { s with
      depth := c, pc := (s.frame c).retPc, events := s.events ++ List.replicate (n + 1) .execEnd } := by
  have hcall' (d : Nat) (es : List Event) : (State.frame { s with depth := d, events := es } c).tail = false := hcall
  rw [terminate, hd, unwind_tails (c + 1) n s hd fun k h₁ h₂ => htails k h₁ (by omega), unwind, hcall']
  simp [emit, List.replicate_succ', State.frame]

theorem terminate_of_tails {s : State} (htails : ∀ k, k < s.depth → (s.frame k).tail = true) :
    terminate s = { s with depth := 0, events := s.events ++ List.replicate s.depth .execEnd } := by
  have h := unwind_tails 0 s.depth s (Nat.zero_add _).symm fun k _ hk => htails k (by omega)
  rw [Nat.zero_add] at h
  rw [terminate, h, unwind]

/-- Settles O24: `ret` is `Terminate`, and the lowest frame it pops decides where it ends. -/
theorem retUnwindsTailFrames : Obligations.RetUnwindsTailFrames := by
  refine ⟨fun s c n hd htails hcall => ?_, fun s htails => ?_⟩
  · rw [exec_ret, terminate_of_callFrame (s := acceptOpcode 4#4 s) hd htails hcall]
    rfl
  · rw [exec_ret, terminate_of_tails (s := acceptOpcode 4#4 s) htails]
    rfl

/-! ### The pops of `call` and `jnz` -/

/-- `u` is `s` after the pops of an instruction with opcode `op`, which leave the cells `base`. -/
structure Popped (op : Nibble) (base : List Byte) (s u : State) : Prop where
  frame : u = { s with sp := u.sp, curOp := op }
  cells : u.cells = base

theorem exec_call_enters {s : State} {base : List Byte} {slot : Byte} (h : PopsTo s.cells base slot) :
    ∃ u, exec .call s = .next (enter slot false u) ∧ Popped 5#4 base s u := by
  obtain ⟨u, hpop, hu, hcells⟩ := stackPop_accept 5#4 h
  exact ⟨u, by rw [exec_call, hpop], hu, hcells⟩

section
variable {s : State} {mid base : List Byte} {slot test : Byte}

theorem exec_jnz_tests (h : PopsTo s.cells mid slot) (h' : PopsTo mid base test) :
    ∃ u, exec .jnz s = .next (if test = 0#8 then u else enter slot true u) ∧ Popped 11#4 base s u := by
  obtain ⟨u, hpop, hu, hcells⟩ := popTwo_accept 11#4 h h'
  exact ⟨u, by rw [exec_jnz, hpop], hu, hcells⟩

theorem exec_jnz_enters (h : PopsTo s.cells mid slot) (h' : PopsTo mid base test) (htest : test ≠ 0#8) :
    ∃ u, exec .jnz s = .next (enter slot true u) ∧ Popped 11#4 base s u := by
  obtain ⟨u, hexec, hu⟩ := exec_jnz_tests h h'
  exact ⟨u, by rw [hexec, if_neg htest], hu⟩

end

/-- Settles O26: with a test value of 0 the two pops are all. -/
theorem jnzNotTaken : Obligations.JnzNotTaken := by
  intro s mid base slot h h'
  obtain ⟨u, hexec, hu⟩ := exec_jnz_tests h h'
  exact ⟨u, by rw [hexec, if_pos rfl], hu.cells, hu.frame⟩

/-! ### What `Enter` makes of the state after the pops -/

section
variable {op : Nibble} {base : List Byte} {s u : State} {slot : Byte}

/-- `Enter` leaves the stack as the pops left it. -/
theorem Popped.enter_cells (hu : Popped op base s u) (slot : Byte) (tail : Bool) : (enter slot tail u).cells = base :=
  (cells_congr (enter_stack slot tail u) (enter_sp slot tail u)).trans hu.cells

theorem Popped.entry_eq (hu : Popped op base s u) (h : slot.toNat < 16) : u.gt[slot.toNat] = s.gt[slot.toNat] := by
  have hgt : u.gt = s.gt := by rw [hu.frame]
  simp only [hgt]

theorem Popped.depth_eq (hu : Popped op base s u) : u.depth = s.depth := by rw [hu.frame]
theorem Popped.rs_eq (hu : Popped op base s u) : u.rs = s.rs := by rw [hu.frame]
theorem Popped.rsDepth_eq (hu : Popped op base s u) : u.rsDepth = s.rsDepth := rsDepth_congr hu.rs_eq
theorem Popped.pc_eq (hu : Popped op base s u) : u.pc = s.pc := by rw [hu.frame]

theorem Popped.enter_of_room (hu : Popped op base s u) (tail : Bool) (h : slot.toNat < 16)
    (hv : s.gt[slot.toNat].valid = true) (hd : s.depth < s.rsDepth) :
    ∃ t, enter slot tail u = t ∧ t.cells = base ∧ t.depth = s.depth + 1 ∧
      t.pc.val = s.gt[slot.toNat].addr.toNat ∧ t.rsDepth = s.rsDepth ∧ t.frame s.depth = ⟨s.pc, tail⟩ ∧
      (∀ k, k ≠ s.depth → t.frame k = s.frame k) ∧
      t = { s with
        sp := t.sp, pc := t.pc, rs := t.rs, depth := t.depth, curOp := op, events := s.events ++ [.execBegin] } := by
  have hrs : (pushFrame tail s.gt[slot.toNat].addr u).rs = s.rs.set s.depth ⟨s.pc, tail⟩ := by
    rw [pushFrame_rs, hu.rs_eq, hu.depth_eq, hu.pc_eq]
  obtain ⟨htop, hbelow⟩ := frame_of_set hrs hd
  have hcells := hu.enter_cells slot tail
  have henter : enter slot tail u = pushFrame tail s.gt[slot.toNat].addr u := by
    rw [← hu.entry_eq h] at hv ⊢
    rw [← hu.depth_eq, ← hu.rsDepth_eq] at hd
    exact Machine.enter_of_room tail h hv hd
  rw [henter] at hcells ⊢
  refine ⟨_, rfl, hcells, ?_, rfl, ?_, htop, hbelow, ?_⟩
  · rw [pushFrame_depth, hu.depth_eq]
  · rw [pushFrame_rsDepth, hu.rsDepth_eq]
  · rw [hu.frame]; rfl

theorem Popped.enter_of_full (hu : Popped op base s u) (tail : Bool) (h : slot.toNat < 16)
    (hv : s.gt[slot.toNat].valid = true) (hd : s.depth = s.rsDepth) :
    ∃ t, enter slot tail u = t ∧ t.cells = base ∧
      t = { raise .rsOvf s with
        sp := t.sp, curOp := op, depth := 0, pend := 0#8
        events := s.events ++ List.replicate s.depth .execEnd } := by
  rw [← hu.entry_eq h] at hv
  have hfull : ¬ u.depth < u.rsDepth := by rw [hu.depth_eq, hu.rsDepth_eq, hd]; exact Nat.lt_irrefl _
  have hcells := hu.enter_cells slot tail
  rw [Machine.enter_of_full tail h hv hfull] at hcells ⊢
  refine ⟨_, rfl, hcells, ?_⟩
  rw [hu.frame]; rfl

/-- The fault bit of an invalid slot, set after the pops. -/
theorem Popped.raise_frame (hu : Popped op base s u) (b : FaultBit) :
    raise b u = { raise b s with sp := (raise b u).sp, curOp := op } := by rw [hu.frame]; rfl

end

/-! ### `call` and a taken `jnz` -/

/-- Settles O25: the pop, and then `Enter` with room. -/
theorem callEntersProcedure : Obligations.CallEntersProcedure := by
  intro s base slot hpop h hv hd
  obtain ⟨u, hexec, hu⟩ := exec_call_enters hpop
  obtain ⟨t, rfl, ht⟩ := hu.enter_of_room false h hv hd
  exact ⟨_, hexec, ht⟩

/-- Settles O27: the two pops, and then `Enter` with room. -/
theorem jnzTakenEntersTail : Obligations.JnzTakenEntersTail := by
  intro s mid base slot test hpop hpop' htest h hv hd
  obtain ⟨u, hexec, hu⟩ := exec_jnz_enters hpop hpop' htest
  obtain ⟨t, rfl, ht⟩ := hu.enter_of_room true h hv hd
  exact ⟨_, hexec, ht⟩

/-- Settles O28: after the pops the lookup answers no address, and sets the bit of the check that failed. -/
theorem invalidSlotEntersNothing : Obligations.InvalidSlotEntersNothing := by
  refine ⟨fun s base slot hpop => ?_, fun s mid base slot test hpop hpop' htest => ?_⟩
  · obtain ⟨u, hexec, hu⟩ := exec_call_enters hpop
    refine ⟨fun h => ⟨_, hexec, hu.enter_cells slot false, ?_⟩, fun h hv => ⟨_, hexec, hu.enter_cells slot false, ?_⟩⟩
    · rw [enter_of_badSlot u false h]
      exact hu.raise_frame .badSlot
    · rw [← hu.entry_eq h] at hv
      rw [enter_of_undefSlot false h hv]
      exact hu.raise_frame .undefSlot
  · obtain ⟨u, hexec, hu⟩ := exec_jnz_enters hpop hpop' htest
    refine ⟨fun h => ⟨_, _, hexec, ?_, hu.enter_cells slot true, hu.raise_frame .badSlot⟩,
      fun h hv => ⟨_, _, hexec, ?_, hu.enter_cells slot true, hu.raise_frame .undefSlot⟩⟩
    · exact enter_of_badSlot u true h
    · rw [← hu.entry_eq h] at hv
      exact enter_of_undefSlot true h hv

/-- Settles O29: after the pops the slot is found assigned, and there is no frame left. -/
theorem fullReturnStackAborts : Obligations.FullReturnStackAborts := by
  refine ⟨fun s base slot hpop h hv hd => ?_, fun s mid base slot test hpop hpop' htest h hv hd => ?_⟩
  · obtain ⟨u, hexec, hu⟩ := exec_call_enters hpop
    obtain ⟨t, rfl, ht⟩ := hu.enter_of_full false h hv hd
    exact ⟨_, hexec, ht⟩
  · obtain ⟨u, hexec, hu⟩ := exec_jnz_enters hpop hpop' htest
    obtain ⟨t, rfl, ht⟩ := hu.enter_of_full true h hv hd
    exact ⟨_, hexec, ht⟩

/-! ### Begin and end events -/

theorem eventsBalanced_of_eq {s t : State} (hevents : t.events = s.events) (hdepth : t.depth = s.depth)
    (h : EventsBalanced s) : EventsBalanced t := by rwa [EventsBalanced, hevents, hdepth]

/-- Popping frames with one `ExecEnd` each keeps the balance. -/
theorem eventsBalanced_of_popped {s t : State} {k : Nat} (hevents : t.events = s.events ++ List.replicate k .execEnd)
    (hdepth : t.depth + k = s.depth) (h : EventsBalanced s) : EventsBalanced t := by
  have hb : (List.replicate k Event.execEnd).count .execBegin = 0 := List.count_eq_zero.2 (by simp)
  unfold EventsBalanced at h ⊢
  rw [hevents, List.count_append, List.count_append, hb, List.count_replicate_self]
  omega

theorem pushFrame_eventsBalanced {s : State} (tail : Bool) (a : Byte) (h : EventsBalanced s) :
    EventsBalanced (pushFrame tail a s) := by
  rw [EventsBalanced] at h
  simp [EventsBalanced, h, Nat.add_assoc]

theorem balanced_closed : Closed fun s t => EventsBalanced s → EventsBalanced t where
  refl _ h := h
  trans h₁ h₂ h := h₂ (h₁ h)
  push b s := eventsBalanced_of_eq (stackPush_events b s) (stackPush_depth b s)
  pop s := eventsBalanced_of_eq (stackPop_events s) (stackPop_depth s)
  pend _ _ h := h
  raise _ _ h := h
  store _ _ _ _ _ h := h
  accept _ _ h := h
  defN _ _ h := h
  remove off s := eventsBalanced_of_eq (stackRemoveAt_events off s) (stackRemoveAt_depth off s)
  display v s h := by simpa [EventsBalanced] using h
  entry _ tail _ _ _ _ := pushFrame_eventsBalanced tail _
  abort _ _ := eventsBalanced_of_popped rfl (Nat.zero_add _)
  terminate s := by
    obtain ⟨k, hevents, hdepth⟩ := terminate_events s
    exact eventsBalanced_of_popped hevents hdepth

theorem assertRst_eventsBalanced (s : State) : EventsBalanced (assertRst s) := rfl

/-- Settles O44: every frame pushed emits an `ExecBegin` and every frame popped an `ExecEnd`; a reset empties the trace. -/
theorem stepKeepsEventsBalanced : Obligations.StepKeepsEventsBalanced := by
  intro s t hs h
  rcases Bool.eq_false_or_eq_true s.rst with hr | hr
  · rw [next_unique h (step_of_rst hr)]
    exact assertRst_eventsBalanced s
  · exact balanced_closed.step (fun _ _ hb => hb) (fun _ _ _ _ hb => hb) hr h hs

/-! ### What one value fed does to the engine -/

/-- What an instruction does to the return stack and `pc`: it enters a procedure, resumes a caller, ends them all, or leaves
them alone. -/
inductive EngineMove (s t : State) : Prop
  | stays : t.rs = s.rs → t.depth = s.depth → t.pc = s.pc → EngineMove s t
  | enters (tail : Bool) : s.depth < s.rsDepth → t.rs = s.rs.set s.depth ⟨s.pc, tail⟩ → t.depth = s.depth + 1 →
      EngineMove s t
  | resumes : t.rs = s.rs → t.depth < s.depth → t.pc = (s.frame t.depth).retPc → EngineMove s t
  | goesIdle : t.depth = 0 → EngineMove s t

theorem frame_congr {s t : State} (h : t.rs = s.rs) : t.frame = s.frame := by
  funext k; rw [State.frame, State.frame, h]

/-- A move after what leaves the engine alone. -/
theorem EngineMove.after {s u t : State} (hrs : u.rs = s.rs) (hd : u.depth = s.depth) (hpc : u.pc = s.pc)
    (h : EngineMove u t) : EngineMove s t := by
  cases h with
  | stays h₁ h₂ h₃ => exact .stays (h₁.trans hrs) (h₂.trans hd) (h₃.trans hpc)
  | enters tail hroom h₁ h₂ =>
    rw [rsDepth_congr hrs, hd] at hroom
    rw [hrs, hd, hpc] at h₁
    exact .enters tail hroom h₁ (h₂.trans (by rw [hd]))
  | resumes h₁ h₂ h₃ =>
    rw [hd] at h₂
    rw [frame_congr hrs] at h₃
    exact .resumes (h₁.trans hrs) h₂ h₃
  | goesIdle h₀ => exact .goesIdle h₀

theorem terminate_engineMove (s : State) : EngineMove s (terminate s) := by
  rcases unwind_stops s.depth s with ⟨h0, he⟩ | ⟨-, hlt, h0 | hpc⟩
  · exact .goesIdle (by rw [terminate, he, h0])
  · exact .goesIdle h0
  · exact .resumes (terminate_rs s) hlt hpc

theorem enter_engineMove (slot : Byte) (tail : Bool) (s : State) : EngineMove s (enter slot tail s) := by
  have lookup {t : State} := EngineMove.after (t := t) (gtLookup_rs slot s) (gtLookup_depth slot s) (gtLookup_pc slot s)
  rcases enter_cases slot tail s with ⟨-, -, he⟩ | ⟨-, -, he⟩ | ⟨_, -, -, he⟩ | ⟨_, -, hroom, he⟩ <;> rw [he]
  · exact lookup (terminate_engineMove _)
  · exact lookup (.stays rfl rfl rfl)
  · exact .goesIdle rfl
  · have hrs := rsDepth_congr (gtLookup_rs slot s)
    exact lookup (.enters tail (by rwa [hrs, gtLookup_depth]) rfl rfl)

theorem exec_engineMove {i : Instr} {s t : State} (h : exec i s = .next t) : EngineMove s t := by
  cases i <;> simp at h <;> subst h
  case ret => exact .after (u := acceptOpcode 4#4 s) rfl rfl rfl (terminate_engineMove _)
  case call => exact (enter_engineMove _ false _).after (by simp) (by simp) (by simp)
  case jnz =>
    split
    · exact .stays (by simp) (by simp) (by simp)
    · exact (enter_engineMove _ true _).after (by simp) (by simp) (by simp)
  case define body => split <;> exact .stays (by simp) (by simp) (by simp)
  all_goals exact .stays (by simp) (by simp) (by simp)

theorem feed_engineMove {b : Byte} {s t : State} (h : feed b s = .next t) : EngineMove s t := by
  cases fed_of_feed h with
  | formatZ _ _ he => exact exec_engineMove he
  | strayOpcode _ _ _ he => exact (exec_engineMove he).after (by simp) (by simp) (by simp)
  | ignored => exact .stays rfl rfl rfl
  | pushOpens => exact .stays rfl rfl rfl
  | defineOpens => exact .stays (by simp) (by simp) (by simp)
  | emptyDefine => exact .stays (by simp) (by simp) (by simp)
  | operand => exact .stays (by simp) (by simp) (by simp)
  | defineCloses => exact .stays (by simp) (by simp) (by simp)

/-! ### The fetches left (R181) -/

/-- What a fetch at depth `d` counts: more than all the fetches, at most 257, of a procedure entered from there. -/
def fetchWeight (s : State) (d : Nat) : Nat := 258 ^ (s.rsDepth - d)

/-- What the callers below depth `d` have left; frame `k` holds the resume address of the procedure at depth `k`. -/
def suspendedWork (s : State) (d : Nat) : Nat :=
  ∑ k ∈ Finset.Ico 1 d, fetchWeight s k * (257 - (s.frame k).retPc.val)

/-- What all the procedures entered have left; the abort at 256 counts as a fetch. -/
def remainingWork (s : State) : Nat := suspendedWork s s.depth + fetchWeight s s.depth * (257 - s.pc.val)

theorem fetchWeight_pos (s : State) (d : Nat) : 0 < fetchWeight s d := Nat.pow_pos (by decide)

theorem fetchWeight_congr {s t : State} (h : t.rsDepth = s.rsDepth) : fetchWeight t = fetchWeight s := by
  funext d; rw [fetchWeight, fetchWeight, h]

theorem fetchWeight_of_room {s : State} {d : Nat} (h : d < s.rsDepth) : fetchWeight s d = 258 * fetchWeight s (d + 1) := by
  rw [fetchWeight, fetchWeight, ← Nat.pow_succ', show s.rsDepth - d = s.rsDepth - (d + 1) + 1 by omega]

theorem suspendedWork_succ (s : State) {d : Nat} (h : 0 < d) :
    suspendedWork s (d + 1) = suspendedWork s d + fetchWeight s d * (257 - (s.frame d).retPc.val) :=
  Finset.sum_Ico_succ_top h _

theorem suspendedWork_mono (s : State) {d e : Nat} (h : d ≤ e) : suspendedWork s d ≤ suspendedWork s e :=
  Finset.sum_le_sum_of_subset (Finset.Ico_subset_Ico_right h)

theorem suspendedWork_congr {s t : State} {d : Nat} (hsize : t.rsDepth = s.rsDepth)
    (hframe : ∀ k, k < d → t.frame k = s.frame k) : suspendedWork t d = suspendedWork s d :=
  Finset.sum_congr rfl fun k hk => by
    rw [fetchWeight_congr hsize, hframe k (Finset.mem_Ico.1 hk).2]

theorem suspendedWork_of_rs {s t : State} (h : t.rs = s.rs) (d : Nat) : suspendedWork t d = suspendedWork s d :=
  suspendedWork_congr (rsDepth_congr h) fun k _ => by rw [frame_congr h]

/-- A procedure entered counts less than the one fetch that entered it; a caller resumed has been counted before. -/
theorem EngineMove.work {s t : State} (h : EngineMove s t) (hd : 0 < s.depth) :
    t.depth = 0 ∨ remainingWork t < remainingWork s + fetchWeight s s.depth := by
  have hpos := fetchWeight_pos s s.depth
  cases h with
  | goesIdle h0 => exact .inl h0
  | stays hrs hdepth hpc =>
    right
    rw [remainingWork, hdepth, hpc, fetchWeight_congr (rsDepth_congr hrs), suspendedWork_of_rs hrs, ← remainingWork]
    omega
  | enters tail hroom hrs hdepth =>
    right
    have hsize : t.rsDepth = s.rsDepth := by simp [State.rsDepth, hrs]
    obtain ⟨htop, hbelow⟩ := frame_of_set hrs hroom
    have hnew : fetchWeight s (s.depth + 1) * (257 - t.pc.val) ≤ fetchWeight s (s.depth + 1) * 257 :=
      Nat.mul_le_mul_left _ (Nat.sub_le _ _)
    have hlight := fetchWeight_of_room hroom
    have hpos' := fetchWeight_pos s (s.depth + 1)
    rw [remainingWork, hdepth, suspendedWork_succ t hd, fetchWeight_congr hsize, htop,
      suspendedWork_congr hsize fun k hk => hbelow k (Nat.ne_of_lt hk), remainingWork]
    show _ + fetchWeight s s.depth * (257 - s.pc.val) + _ < _
    omega
  | resumes hrs hlt hpc =>
    rcases Nat.eq_zero_or_pos t.depth with h0 | htd
    · exact .inl h0
    · right
      calc remainingWork t
          = suspendedWork s (t.depth + 1) := by
            rw [remainingWork, hpc, fetchWeight_congr (rsDepth_congr hrs), suspendedWork_of_rs hrs, suspendedWork_succ s htd]
        _ ≤ suspendedWork s s.depth := suspendedWork_mono s hlt
        _ < remainingWork s + fetchWeight s s.depth := by rw [remainingWork]; omega

theorem remainingWork_fetch {s : State} (hlt : s.pc.val < 256) :
    remainingWork s = remainingWork { s with pc := countUp s.pc } + fetchWeight s s.depth := by
  have hleft : 257 - s.pc.val = 257 - (countUp s.pc).val + 1 := by rw [countUp_val _ hlt]; omega
  rw [remainingWork, hleft, Nat.mul_add_one, ← Nat.add_assoc]
  rfl

theorem busy_step_work {s t : State} (hr : s.rst = false) (hd : 0 < s.depth) (h : step s = .next t) :
    t.depth = 0 ∨ remainingWork t < remainingWork s := by
  rcases step_cases hr h with ⟨h0, -⟩ | ⟨-, -, rfl⟩ | ⟨h0, -⟩ | ⟨-, hlt, hf⟩
  · omega
  · exact .inl rfl
  · omega
  · rw [remainingWork_fetch hlt]
    exact (feed_engineMove hf).work hd

/-! ### Termination -/

theorem rst_closed : Closed fun s t => t.rst = s.rst where
  refl _ := rfl
  trans h₁ h₂ := h₂.trans h₁
  push b s := stackPush_rst b s
  pop s := stackPop_rst s
  pend _ _ := rfl
  raise _ _ := rfl
  store _ _ _ _ _ := rfl
  accept _ _ := rfl
  defN _ _ := rfl
  remove off s := stackRemoveAt_rst off s
  display _ _ := rfl
  entry _ _ _ _ _ _ := rfl
  abort _ _ := rfl
  terminate := terminate_rst

/-- A busy core has a step; it takes no input and asks for no reset. -/
theorem busy_step_next {s : State} (hr : s.rst = false) (hd : 0 < s.depth) :
    ∃ t, step s = .next t ∧ t.rst = false ∧ t.input = s.input := by
  obtain ⟨t, -, ht, -, hinput, -⟩ := busy_step_differInInput (decide_eq_true hd) s.input
  exact ⟨t, ht, (rst_closed.step (fun _ _ => rfl) (fun _ _ _ _ => rfl) hr ht).trans hr, hinput⟩

/-- Settles O54, by induction on the fetches left. -/
theorem processingTerminates : Obligations.ProcessingTerminates := by
  intro s hr
  induction hw : remainingWork s using Nat.strong_induction_on generalizing s with
  | _ w ih =>
    subst hw
    rcases Nat.eq_zero_or_pos s.depth with h0 | hd
    · exact ⟨0, s, rfl, h0, rfl⟩
    · obtain ⟨t, ht, hrt, hinput⟩ := busy_step_next hr hd
      rcases busy_step_work hr hd ht with h0 | hless
      · exact ⟨1, t, run_one ht, h0, hinput⟩
      · obtain ⟨k, v, hrun, hv0, hvinput⟩ := ih _ hless t hrt rfl
        exact ⟨k + 1, v, (run_next k ht).trans hrun, hv0, hvinput.trans hinput⟩

end Sys2Proof.Machine

/-! PROOFS. Exceptions (60_exceptions.md). The abort is a `raise` and the emptying of the return stack (R202). Nothing stops the
core (R200, R201): every instruction and every value fed has a next state, and without a value the idle core keeps its state
(R212). -/

namespace Sys2Proof.Machine

open Sys2Proof

/-! ### The abort (R202) -/

theorem abort_hasFault (b c : FaultBit) (s : State) : (abort b s).hasFault c = (s.hasFault c || decide (b = c)) :=
  raise_hasFault b c s

/-- Settles O30: of the fault register the abort changes what `raise` changes. -/
theorem abortUnwindsEverything : Obligations.AbortUnwindsEverything := by
  refine fun b s => ⟨abort b s, rfl, ?_, fun c hc => ?_, rfl⟩
  · simp [abort_hasFault]
  · simp [abort_hasFault, hc.symm]

/-! ### The step at top level (R212) -/

theorem topLevelStep_of_no_input {s : State} (h : s.input = []) : topLevelStep s = .next s := by
  rw [topLevelStep, h]

theorem topLevelStep_of_input {s : State} {n : Nibble} {rest : List Nibble} (h : s.input = n :: rest) :
    topLevelStep s = feed (zext8 n) { s with input := rest } := by
  rw [topLevelStep, h]

/-- Settles O35: at top level the step looks for an input symbol only. -/
theorem idleCoreHoldsState : Obligations.IdleCoreHoldsState := by
  intro s hr hready hvalid
  have hd : s.depth = 0 := of_decide_eq_true hready
  have hi : s.input = [] := by simpa [State.inValid] using hvalid
  rw [step_of_idle hr hd, topLevelStep_of_no_input hi]

/-! ### Every step has a next state (R200, R201) -/

theorem feed_next (b : Byte) (s : State) : ∃ t, feed b s = .next t := by
  obtain ⟨t, ht, -⟩ := rst_closed.feed b s
  exact ⟨t, ht⟩

theorem topLevelStep_next (s : State) : ∃ t, topLevelStep s = .next t := by
  cases hi : s.input with
  | nil => exact ⟨s, topLevelStep_of_no_input hi⟩
  | cons n rest => rw [topLevelStep_of_input hi]; exact feed_next (zext8 n) { s with input := rest }

theorem step_next (s : State) : ∃ t, step s = .next t := by
  rcases Bool.eq_false_or_eq_true s.rst with hr | hr
  · exact ⟨_, step_of_rst hr⟩
  · rcases Nat.eq_zero_or_pos s.depth with hd | hd
    · rw [step_of_idle hr hd]
      exact topLevelStep_next s
    · obtain ⟨t, ht, -⟩ := busy_step_next hr hd
      exact ⟨t, ht⟩

/-- Settles O40: a step is a reset, or a value fed, or the abort of the fetch, or nothing. -/
theorem nothingStopsTheMachine : Obligations.NothingStopsTheMachine := by
  refine ⟨fun i s => ?_, step_next⟩
  obtain ⟨t, ht, -⟩ := exec_next i s
  exact ⟨t, ht⟩

end Sys2Proof.Machine

/-! PROOFS. Reset and hazards (70_reset_and_hazards.md). A reset request is looked at before anything else, so no part of the
step it discards shows in the next state (R230). -/

namespace Sys2Proof.Machine

open Sys2Proof

/-- Settles O33: the state a reset request gives, `assertRst s`, is the one the statement writes out. -/
theorem resetRequest : Obligations.ResetRequest := fun _ hr => step_of_rst hr

end Sys2Proof.Machine
